-- ==== Sys2Proof/Word.lean ====
section
/-!
DEFINITION. The word types of the block (00_scope.md R9: every value is unsigned).
-/

namespace Sys2Proof

/-- A bank cell, a codemap entry, a stream byte, an 8-bit header field (R16, R24, R38, R55). -/
abbrev Byte := BitVec 8

/-- A 16-bit header field (R55). -/
abbrev Word16 := BitVec 16

/-- A 32-bit header field, and the pair counter (R18, R55). -/
abbrev Word32 := BitVec 32

/-- The level (attenuation) field of a level value, bits 5:0 (R60). -/
abbrev Level := BitVec 6

end Sys2Proof
end

