-- ==== Sys2Proof/Config.lean ====
section
/-!
DEFINITION. What is fixed for the block: the sizes of 00_scope.md R7, the attenuation function a model takes (R8), the
header registers (10_state.md R23) and the places of the image (30_encoding.md R54).
The tables a model takes stand in Machine/Classifier.lean, with the conditions they must meet.
-/

namespace Sys2Proof

/-- `HEADER_SIZE` (R7). -/
abbrev headerSize : Nat := 26

/-- The size of `MAGIC` in bytes (R7). -/
abbrev magicSize : Nat := 8

/-- `ATTEN_FN` (R8), a function from a 6-bit level to a natural number, held as plain data.
`satsub` is `ATTEN_VARIANT = INTENDED` (R100, the default), `originalZero` the variant of R102, and `table` any function
at all, one natural number for each of the 64 levels (I12: the mask of R98 applies to it).
Log 3. -/
inductive AttenFn where
  | satsub
  | originalZero
  | table (entries : Vector Nat 64)
deriving DecidableEq, Repr

/-- The configuration registers, latched from the 26-byte header (R23, R55). -/
structure Header where
  signature    : List Byte
  versionMajor : Word16
  versionMinor : Word16
  pairCount    : Word32
  durationMs   : Word32
  hwType       : Byte
  format       : Byte
  compression  : Byte
  shortDelay   : Byte
  longDelay    : Byte
  codemapLen   : Byte
deriving DecidableEq, Repr

/-- Which of the three formats of R54 stands at the next input byte: the header (R55), the codemap (R57), a pair
(R58), or none of them, because no LOAD operation starts there and no pair is due. -/
inductive Position where
  | header
  | codemap
  | pairs
  | nowhere
deriving DecidableEq, Repr

end Sys2Proof
end

