-- ==== Sys2Proof/Machine/Classifier.lean ====
section
/-!
DEFINITION. The register classifier (41_classifier.md): pure functions of a real register number and the fixed tables
(R92), the tables a model takes with the conditions it requires of them (R87, R91), and the defaults (R89, R90).
-/

namespace Sys2Proof.Machine

/-- `LEVEL_LO`, `LEVEL_HI` (00_scope.md R7). -/
abbrev levelLo : Byte := 0x40#8
/-- See `levelLo`. -/
abbrev levelHi : Byte := 0x55#8

/-- `is_level_register` (R83). -/
def isLevelRegister (reg : Byte) : Bool := decide (levelLo ≤ reg) && decide (reg ≤ levelHi)

/-- `ALGO_MAP[reg]` of a table, `none` outside its domain. -/
def lookupAlgo : List (Byte × Byte) → Byte → Option Byte
  | [], _ => none
  | (l, a) :: rest, reg => if l = reg then some a else lookupAlgo rest reg

/-- The four conditions any `ALGO_MAP` and `CARRIER_SET` must meet (R91; the second is R87's), on the lists that hold
them: the map's keys and the set's members carry no repeats, so that the lengths are the sizes the rule speaks of. -/
def tablesValid (algoMap : List (Byte × Byte)) (carriers : List Byte) : Bool :=
  decide (algoMap.map Prod.fst).Nodup
  && decide (algoMap.length = 18)
  && algoMap.all (fun e => isLevelRegister e.1)
  && algoMap.all (fun e => !isLevelRegister e.2)
  && decide carriers.Nodup
  && decide (carriers.length = 9)
  && carriers.all (fun r => (lookupAlgo algoMap r).isSome)
  && carriers.contains 0x43#8

end Sys2Proof.Machine

namespace Sys2Proof

/-- The arguments a model takes (00_scope.md R8): `ALGO_MAP` as (level register, algorithm register) entries,
`CARRIER_SET` as its members, and `ATTEN_FN`. Fixed for the block, written by no step (10_state.md R31). The model
requires R87 and R91 here: tables that do not meet the conditions are no `Params`, and no state holds them. Log 1. -/
structure Params where
  algoMap  : List (Byte × Byte)
  carriers : List Byte
  atten    : AttenFn
  valid    : Machine.tablesValid algoMap carriers = true
deriving DecidableEq, Repr

end Sys2Proof

namespace Sys2Proof.Machine

/-- `algorithm_register_for` (R85): `none` stands for its raise of UnmappedLevelRegister. -/
def algorithmRegisterFor (P : Params) (reg : Byte) : Option Byte := lookupAlgo P.algoMap reg

/-- `is_carrier` (R88). -/
def isCarrier (P : Params) (reg : Byte) : Bool := P.carriers.contains reg

/-- `off(ch)` of R89 for the channels 0 to 8, beside the channel number. -/
def channelOffsets : List (Byte × Byte) :=
  [(0, 0x00), (1, 0x01), (2, 0x02), (3, 0x08), (4, 0x09), (5, 0x0A), (6, 0x10), (7, 0x11), (8, 0x12)]

/-- The default `ALGO_MAP` (R89): for channel `ch`, `0x40 + off(ch)` and `0x43 + off(ch)` map to `0xC0 + ch`.
PRESUMED by the spec itself (general knowledge, G1); unsafe; log 2. -/
def defaultAlgoMap : List (Byte × Byte) :=
  channelOffsets.flatMap fun (ch, off) => [(0x40 + off, 0xC0 + ch), (0x43 + off, 0xC0 + ch)]

/-- The default `CARRIER_SET` (R90). PRESUMED by the spec itself (G2); unsafe; log 2. -/
def defaultCarriers : List Byte := [0x43, 0x44, 0x45, 0x4B, 0x4C, 0x4D, 0x53, 0x54, 0x55]

/-- The default arguments of 00_scope.md R8, `ATTEN_VARIANT = INTENDED`. -/
def defaultParams : Params :=
  { algoMap := defaultAlgoMap, carriers := defaultCarriers, atten := .satsub, valid := by decide }

end Sys2Proof.Machine
end

