-- ==== Sys2Proof/Machine/Memory.lean ====
section
/-!
DEFINITION. The bank space (20_memory.md R35): 256 addresses of one byte each, as a list of (address, byte) cells in
one canonical form.
-/

namespace Sys2Proof.Machine

/-- The cells that hold something other than what an unlisted address reads as, by rising address. Log 8. -/
abbrev Memory := List Host.Cell

/-- What an unlisted address reads as: a cell no pair of the pass has written reads as 0x00 (10_state.md R34). -/
abbrev Memory.unlisted : Byte := 0x00#8

/-- `BANK[a]`, `MemRead(a, 1)` (00_scope.md R10). -/
def Memory.read : Memory → Byte → Byte
  | [], _ => Memory.unlisted
  | (k, w) :: rest, a => if k = a.toNat then w else Memory.read rest a

/-- A cell at the head of `rest`, left out if it holds what an unlisted address reads as. -/
def Memory.cons (a : Byte) (v : Byte) (rest : Memory) : Memory :=
  if v = Memory.unlisted then rest else (a.toNat, v) :: rest

/-- `BANK[a] <- v`, `MemWrite(a, 1, v)` (00_scope.md R10). -/
def Memory.write : Memory → Byte → Byte → Memory
  | [], a, v => Memory.cons a v []
  | (k, w) :: rest, a, v =>
    if k < a.toNat then (k, w) :: Memory.write rest a v
    else if k = a.toNat then Memory.cons a v rest
    else Memory.cons a v ((k, w) :: rest)

/-- Every address of the list lies at or above `lo`, strictly rising and below 256, and no cell holds what an unlisted
address reads as. -/
def Memory.wfFrom : Nat → Memory → Bool
  | _, [] => true
  | lo, (k, w) :: rest =>
    decide (lo ≤ k) && decide (k < 256) && decide (w ≠ Memory.unlisted) && Memory.wfFrom (k + 1) rest

/-- The canonical form: equal banks are equal lists. -/
def Memory.wf (m : Memory) : Bool := Memory.wfFrom 0 m

end Sys2Proof.Machine
end

