-- ==== Sys2Proof/Machine/Flags.lean ====
section
/-!
DEFINITION. The block has no flag register (10_state.md R22). Its only predicate is the algorithm bit of a channel.
-/

namespace Sys2Proof.Machine

/-- `ALGO_BIT_MASK` (00_scope.md R7). -/
abbrev algoBitMask : Byte := 0x01#8

/-- `algo_bit = BANK[algo_reg] & 0x01` (30_encoding.md R61, 42_level_unit.md R95): true is 1, additive; false is 0, FM
(00_scope.md R13). Bits 7:1 of the cell are ignored. -/
def algoBit (bank : Memory) (algoReg : Byte) : Bool := decide (bank.read algoReg &&& algoBitMask = 1#8)

end Sys2Proof.Machine
end

