-- ==== Sys2Proof/Syntax.lean ====
section
/-!
DEFINITION. The ten operations of spec/opcode_table.json, one constructor each.
-/

namespace Sys2Proof

/-- A command pair by the fields of 30_encoding.md R58: `B` (bit 15), `I` (bits 14:8) and `V` (bits 7:0). -/
structure Pair where
  /-- `B`: bank select, 0 = OPL2 #1, 1 = OPL2 #2. -/
  bank  : BitVec 1
  /-- `I`: compact index (`masked_reg`). -/
  index : BitVec 7
  /-- `V`: value. -/
  value : Byte
deriving DecidableEq, Repr

/-- The operations. The two LOAD operations are positional (no opcode bits): each carries the bytes its `InRead`
returned, which may be fewer than it asks for (00_scope.md R10; log 15). -/
inductive Instr where
  /-- LOAD.HEADER (R73). -/
  | loadHeader (h : List Byte)
  /-- LOAD.CODEMAP (R77). -/
  | loadCodemap (c : List Byte)
  /-- DLY.S, short delay (R110). -/
  | dlyS (p : Pair)
  /-- DLY.L, long delay (R111). -/
  | dlyL (p : Pair)
  /-- XLAT.FAULT, compact index with no codemap entry (R116). -/
  | xlatFault (p : Pair)
  /-- WR, plain register write (R112). -/
  | wr (p : Pair)
  /-- LVL.UNMAPPED, level register with no algorithm mapping (R117). -/
  | lvlUnmapped (p : Pair)
  /-- LVL.ADD, any mapped level in additive mode (R115). -/
  | lvlAdd (p : Pair)
  /-- LVL.FM.CAR, carrier level in FM mode (R113). -/
  | lvlFmCar (p : Pair)
  /-- LVL.FM.MOD, modulator level in FM mode (R114). -/
  | lvlFmMod (p : Pair)
deriving DecidableEq, Repr

end Sys2Proof
end

