-- ==== Sys2Proof/Machine/Operands.lean ====
section
/-!
DEFINITION. Operand assembly: the parts of a pair (30_encoding.md R58, R59), the codemap lookup (20_memory.md R36),
the sub-format of a level value (R60), the byte order of header fields (20_memory.md R40), and the context in which a
stretch of the input is decoded (R64).
-/

namespace Sys2Proof

/-- What a decoder needs beside the bytes: it is a function of `(pair, cfg, BANK)` (R64). `bank` is the register bank
in the form of Machine/Memory.lean. -/
structure DecodeCtx where
  position   : Position
  shortDelay : Byte
  longDelay  : Byte
  codemapLen : Byte
  codemap    : List Byte
  bank       : List Host.Cell
  params     : Params
deriving DecidableEq, Repr

end Sys2Proof

namespace Sys2Proof.Machine

/-- The pair whose register byte is `raw` and whose value byte is `val` (R58). -/
def pairOfBytes (raw val : Byte) : Pair :=
  { bank := raw.extractLsb' 7 1, index := raw.extractLsb' 0 7, value := val }

/-- `raw_reg`, the register byte as it stands in the stream: `B` is bit 7, `I` bits 6:0 (R58). -/
def rawReg (p : Pair) : Byte := p.bank ++ p.index

/-- `bank_select = raw_reg & 0x80` (R59). -/
def bankSelect (p : Pair) : Byte := rawReg p &&& 0x80#8

/-- `masked_reg = raw_reg & 0x7F`, the compact index extended by zero to 8 bits (R59). -/
def maskedReg (p : Pair) : Byte := rawReg p &&& 0x7F#8

/-- `real_reg = CODEMAP[masked_reg]` (R59), `none` at or above `CODEMAP_LEN` (R36). A `CODEMAP` that holds fewer entries
than `CODEMAP_LEN` says, which LOAD never leaves, has no entry there either (DESIGN CHOICE, safe, log 13). -/
def codemapEntry (codemapLen : Byte) (codemap : List Byte) (masked : Byte) : Option Byte :=
  if masked < codemapLen then codemap[masked.toNat]? else none

/-- `ksl = value & 0xC0`, kept in place (R60). -/
def kslOf (value : Byte) : Byte := value &&& 0xC0#8

/-- `level = value & 0x3F`, as the six bits it is (R60). -/
def levelOf (value : Byte) : Level := value.extractLsb' 0 6

/-- The value of a little-endian byte string, `sum byte[j] * 256^j` (R40). -/
def leValue : List Byte → Nat
  | [] => 0
  | b :: rest => b.toNat + 256 * leValue rest

/-- The `n` little-endian bytes of a number (R40). -/
def leBytes : Nat → Nat → List Byte
  | 0, _ => []
  | n + 1, v => BitVec.ofNat 8 v :: leBytes n (v / 256)

/-- The `n` bytes at offset `o` of a byte string. -/
def bytesAt (image : List Byte) (o n : Nat) : List Byte := (image.drop o).take n

/-- `InRead(n)` at the offset the bytes start from: the next `n` bytes, fewer only at the end (00_scope.md R10). -/
def inRead (n : Nat) (bytes : List Byte) : List Byte := bytes.take n

end Sys2Proof.Machine
end

