-- ==== Sys2Proof/Decode.lean ====
section
/-!
DEFINITION. The decoder (30_encoding.md R55-R62), total on any bytes, and the encoder after it.
-/

namespace Sys2Proof

open Machine

/-- Why no operation stands at the next input byte. -/
inductive DecodeError where
  /-- Fewer than two bytes are left where a pair is due (R108): the sequencer ends the pass. -/
  | shortPair
  /-- No LOAD operation starts there and no pair is due (R73, R77, R106). -/
  | nothingDue
deriving DecidableEq, Repr

/-- The class of a pair with a level register that has an algorithm register `a`: steps 6 to 8 of R62. -/
def decodeMappedLevel (c : DecodeCtx) (p : Pair) (r a : Byte) : Instr :=
  if algoBit c.bank a then .lvlAdd p
  else if isCarrier c.params r then .lvlFmCar p
  else .lvlFmMod p

/-- The class of a pair with real register `r`: steps 4 to 8 of R62. -/
def decodeReal (c : DecodeCtx) (p : Pair) (r : Byte) : Instr :=
  if isLevelRegister r then
    match algorithmRegisterFor c.params r with
    | none => .lvlUnmapped p
    | some a => decodeMappedLevel c p r a
  else .wr p

/-- The ordered decode tree (R62): the first match wins. -/
def decodePair (c : DecodeCtx) (p : Pair) : Instr :=
  if maskedReg p = c.shortDelay then .dlyS p
  else if maskedReg p = c.longDelay then .dlyL p
  else
    match codemapEntry c.codemapLen c.codemap (maskedReg p) with
    | none => .xlatFault p
    | some r => decodeReal c p r

/-- The operation that stands at the head of the bytes. A LOAD operation takes what its `InRead` returns, which may be
short; its own meaning then raises IOFailure (R73, R77). -/
def decode (c : DecodeCtx) (bytes : List Byte) : Except DecodeError Instr :=
  match c.position with
  | .header => .ok (.loadHeader (inRead headerSize bytes))
  | .codemap => .ok (.loadCodemap (inRead c.codemapLen.toNat bytes))
  | .pairs =>
    match bytes with
    | raw :: val :: _ => .ok (decodePair c (pairOfBytes raw val))
    | _ => .error .shortPair
  | .nowhere => .error .nothingDue

/-- The header's fields (R55, R56): each little-endian, at its own offset. -/
def parseHeader (h : List Byte) : Header :=
  { signature    := bytesAt h 0 8
    versionMajor := BitVec.ofNat 16 (leValue (bytesAt h 8 2))
    versionMinor := BitVec.ofNat 16 (leValue (bytesAt h 10 2))
    pairCount    := BitVec.ofNat 32 (leValue (bytesAt h 12 4))
    durationMs   := BitVec.ofNat 32 (leValue (bytesAt h 16 4))
    hwType       := BitVec.ofNat 8 (leValue (bytesAt h 20 1))
    format       := BitVec.ofNat 8 (leValue (bytesAt h 21 1))
    compression  := BitVec.ofNat 8 (leValue (bytesAt h 22 1))
    shortDelay   := BitVec.ofNat 8 (leValue (bytesAt h 23 1))
    longDelay    := BitVec.ofNat 8 (leValue (bytesAt h 24 1))
    codemapLen   := BitVec.ofNat 8 (leValue (bytesAt h 25 1)) }

/-- `MAGIC`, the ASCII codes of `DBRAWOPL` (R72). -/
def magic : List Byte := [0x44, 0x42, 0x52, 0x41, 0x57, 0x4F, 0x50, 0x4C]

/-- The header image of the fields (R55): the inverse of `parseHeader`. -/
def encodeHeader (h : Header) : List Byte :=
  h.signature
  ++ leBytes 2 h.versionMajor.toNat ++ leBytes 2 h.versionMinor.toNat
  ++ leBytes 4 h.pairCount.toNat ++ leBytes 4 h.durationMs.toNat
  ++ [h.hwType, h.format, h.compression, h.shortDelay, h.longDelay, h.codemapLen]

/-- The two bytes of a pair, register byte first (R58, R41). -/
def pairBytes (p : Pair) : List Byte := [rawReg p, p.value]

/-- The bytes of an operation. -/
def encode : Instr → List Byte
  | .loadHeader h => h
  | .loadCodemap c => c
  | .dlyS p => pairBytes p
  | .dlyL p => pairBytes p
  | .xlatFault p => pairBytes p
  | .wr p => pairBytes p
  | .lvlUnmapped p => pairBytes p
  | .lvlAdd p => pairBytes p
  | .lvlFmCar p => pairBytes p
  | .lvlFmMod p => pairBytes p

/-! The opcode table's words. A pair's bits do not select its class (R64), so a table word is read in one context that
stands here, DESIGN CHOICE, log 16. -/

/-- The codemap of the table context: an algorithm register, an additive level, an FM modulator, an FM carrier and an
unmapped level register, at the compact indices 0 to 4. -/
def tableCodemap : List Byte := [0xC0, 0x40, 0x41, 0x44, 0x46]

/-- The header of the table context: one pair, delay codes 0x7F and 0x7E, five codemap entries. -/
def tableHeader : Header :=
  { signature := magic, versionMajor := 0, versionMinor := 0, pairCount := 1, durationMs := 0, hwType := 0, format := 0,
    compression := 0, shortDelay := 0x7F, longDelay := 0x7E, codemapLen := 5 }

/-- The bank of the table context: channel 0 additive, every other cell 0x00, so that all eight classes occur. -/
def tableBank : List Host.Cell := [(0xC0, 0x01#8)]

/-- Where an instruction of `nbits` bits stands in the table's image: 16 bits are a pair, 208 (or 0, for the table
gives LOAD.HEADER no bits) a header, any other whole number of bytes up to 255 a codemap. Log 16. -/
def tablePosition (nbits : Nat) : Position :=
  if nbits = 16 then .pairs
  else if nbits = 0 ∨ nbits = 208 then .header
  else if nbits % 8 = 0 ∧ nbits ≤ 2040 then .codemap
  else .nowhere

/-- The bytes of a table word in stream order. A pair's bits 15:8 are its register byte, which comes first (R11, R58);
elsewhere the table numbers no bits, and the first byte is bits 7:0. Log 16. -/
def tableBytes (nbits w : Nat) : List Byte :=
  match tablePosition nbits with
  | .header => leBytes headerSize w
  | .codemap => leBytes (nbits / 8) w
  | .pairs => [BitVec.ofNat 8 (w / 256), BitVec.ofNat 8 w]
  | .nowhere => []

/-- The context a table word is read in: a codemap is as long as the word says, all else is the table header's. -/
def tableCtx (nbits : Nat) : DecodeCtx :=
  { position := tablePosition nbits, shortDelay := tableHeader.shortDelay, longDelay := tableHeader.longDelay,
    codemapLen :=
      if tablePosition nbits = .codemap then BitVec.ofNat 8 (nbits / 8) else tableHeader.codemapLen
    codemap := tableCodemap, bank := tableBank, params := defaultParams }

/-- The instruction the decoder reads from a word of the opcode table. -/
def decodeTableWord (nbits w : Nat) : Option Instr :=
  (decode (tableCtx nbits) (tableBytes nbits w)).toOption

end Sys2Proof
end

