-- ==== Sys2Proof/Machine/State.lean ====
section
/-!
DEFINITION. The state of the block (10_state.md R15), the reasons a step can stop, and the state after reset (R32).
-/

namespace Sys2Proof.Machine

/-- `phase` (R20). -/
inductive Phase where
  /-- The header and codemap are being read. -/
  | load
  /-- Pairs are being processed. -/
  | run
  /-- The pass ended normally. -/
  | done
  /-- A fatal error stopped the pass. -/
  | fault
deriving DecidableEq, Repr

/-- `end` (R20): why the pass ended normally. -/
inductive EndReason where
  | none
  | count
  | truncated
deriving DecidableEq, Repr

/-- The fatal fault in the `fault` latch (R21, R126), by name. `FaultCause.code` of Ops.lean gives its number. -/
inductive FaultCause where
  | none
  | badSignature
  | codemapIndexOutOfRange
  | unmappedLevelRegister
  | ioFailure
deriving DecidableEq, Repr

/-- `fault_info` (R21): what the fault names, one form for each row of R126. -/
inductive FaultInfo where
  /-- No fault yet (R32). -/
  | empty
  /-- BadSignature: the 8 signature bytes read. -/
  | signature (bytes : List Byte)
  /-- CodemapIndexOutOfRange: `pc` and the raw register byte. -/
  | rawRegister (pc : Word32) (raw : Byte)
  /-- UnmappedLevelRegister: `pc` and the real register. -/
  | realRegister (pc : Word32) (real : Byte)
  /-- IOFailure: `in_pos`. -/
  | inputPosition (inPos : Nat)
deriving DecidableEq, Repr

/-- The state of the block during one pass (R15). -/
structure State where
  /-- `phase` (R20). -/
  phase     : Phase
  /-- `end` (R20). -/
  endReason : EndReason
  /-- `fault` (R21). -/
  fault     : FaultCause
  /-- `fault_info` (R21). -/
  faultInfo : FaultInfo
  /-- `BANK` (R16), one for both chips (R17). -/
  bank      : Memory
  /-- `pc`, the pairs consumed (R18). -/
  pc        : Word32
  /-- The configuration registers (R23). -/
  header    : Header
  /-- `HDR_BYTES`, the header as read, kept for re-emission (R73, R79). -/
  hdrBytes  : List Byte
  /-- `CODEMAP` (R24). -/
  codemap   : List Byte
  /-- `R`, the host's reduction, of unbounded width (R25). -/
  reduction : Nat
  /-- `in_pos` (R27). -/
  inPos     : Nat
  /-- `OUT` (R28). -/
  out       : List Byte
  /-- The host's input stream, whole, by offset from 0 (R38). Written by no step (R52). Log 4. -/
  input     : List Byte
  /-- The host's reports of I/O failure, the next step's first: `io_fail_reported()` (R125, R130). An exhausted list
  reports nothing. Log 5. -/
  ioReports : List Bool
  /-- `ALGO_MAP`, `CARRIER_SET`, `ATTEN_FN` (R31): arguments of the model, written by no step. Log 1. -/
  params    : Params
deriving DecidableEq, Repr

/-- The reasons the machine stops. The spec's four fatal faults are none of these: taking one is a next state whose
phase is FAULT (R132). -/
inductive Fault where
  /-- Raised by `step` when the pass has ended normally: no step leaves DONE (R20, R123). Safe. Log 9. -/
  | passDone (why : EndReason)
  /-- Raised by `step` when a fatal fault has ended the pass: no step leaves FAULT (R20, R134). Safe. Log 9. -/
  | passFaulted (cause : FaultCause)
  /-- Raised by `step` and by the two LOAD operations where the `require` of R73, or the place R77 and R78 give
  LOAD.CODEMAP, is not met: phase LOAD with `in_pos` neither 0 nor 26. No run from reset meets it. Safe. Log 12. -/
  | requireUnmet
deriving DecidableEq, Repr

/-- The reasons an instruction has no meaning. No arm of `exec` is refused in this model. -/
inductive Refusal where
  /-- Raised by `exec` for an instruction with no meaning yet. Safe. -/
  | notModelled (mnemonic : String)
deriving DecidableEq, Repr

/-- The configuration registers before LOAD writes them: the spec says "unspecified until loaded" (R23, R32), and no
rule reads them there. DESIGN CHOICE: every one zero. Unsafe. Log 6. -/
def Header.unloaded : Header :=
  { signature := List.replicate magicSize 0x00#8, versionMajor := 0, versionMinor := 0, pairCount := 0,
    durationMs := 0, hwType := 0, format := 0, compression := 0, shortDelay := 0, longDelay := 0, codemapLen := 0 }

/-- The block right after reset (R32, R146): no input is placed and no report scheduled (logs 4, 5), `R` is the
host's default 5 (log 7), and the parameters are the spec's defaults (log 2). -/
def State.reset : State :=
  { phase := .load, endReason := .none, fault := .none, faultInfo := .empty, bank := [], pc := 0,
    header := Header.unloaded, hdrBytes := List.replicate headerSize 0x00#8, codemap := [], reduction := 5,
    inPos := 0, out := [], input := [], ioReports := [], params := defaultParams }

end Sys2Proof.Machine
end

