-- ==== Sys2Proof/Machine/Ops.lean ====
section
/-!
DEFINITION. The named operations over the state: the fault entry, the ends of a pass, the bank write, the output, the
host's report, and the state as the decoder sees it.
-/

namespace Sys2Proof.Machine

/-- The numeric code of a fault (60_exceptions.md R126). -/
def FaultCause.code : FaultCause → Nat
  | .none => 0
  | .badSignature => 1
  | .codemapIndexOutOfRange => 2
  | .unmappedLevelRegister => 3
  | .ioFailure => 4

/-- Taking a fault, `raise <Fault>(info)` (R132): the phase and the two latches are written and nothing else. There is
no return from a fault (R134), so no operation stands beside this one. -/
def raiseFault (cause : FaultCause) (info : FaultInfo) (s : State) : State :=
  { s with phase := .fault, fault := cause, faultInfo := info }

/-- `raise IOFailure(in_pos)` (R130). -/
def raiseIoFailure (s : State) : State := raiseFault .ioFailure (.inputPosition s.inPos) s

/-- A normal end of the pass (R107, R108). -/
def endPass (why : EndReason) (s : State) : State := { s with phase := .done, endReason := why }

/-- `BANK[a] <- v`. -/
def writeBank (a v : Byte) (s : State) : State := { s with bank := s.bank.write a v }

/-- `Emit(b...)` (00_scope.md R10): output is append-only (R28). -/
def emit (bytes : List Byte) (s : State) : State := { s with out := s.out ++ bytes }

/-- `pc <- pc + 1; in_pos <- in_pos + 2` (R19, R27). -/
def advancePair (s : State) : State := { s with pc := s.pc + 1, inPos := s.inPos + 2 }

/-- The end of every pair that completes (R118): the original raw register byte and the out value are emitted, and the
pair is counted. -/
def completePair (p : Pair) (out : Byte) (s : State) : State := advancePair (emit [rawReg p, out] s)

/-- `real_reg <- CODEMAP[masked_reg]` in a pair's own execution: a codemap index with no entry faults with
CodemapIndexOutOfRange (20_memory.md R36, 60_exceptions.md R128). -/
def withRealReg (p : Pair) (s : State) (k : Byte → Host.Outcome State Fault Refusal) :
    Host.Outcome State Fault Refusal :=
  match codemapEntry s.header.codemapLen s.codemap (maskedReg p) with
  | none => .next (raiseFault .codemapIndexOutOfRange (.rawRegister s.pc (rawReg p)) s)
  | some r => k r

/-- `io_fail_reported()` of this step (R125, R130). Log 5. -/
def ioFailReported (s : State) : Bool := s.ioReports.headD false

/-- The step has taken its report. -/
def takeIoReport (s : State) : State := { s with ioReports := s.ioReports.tail }

/-- What stands at `in_pos`: the header at offset 0 and the codemap at offset 26 in LOAD (opcode_table.json; R47, R78),
a pair in RUN (R106). Log 12. -/
def positionOf (s : State) : Position :=
  match s.phase with
  | .load => if s.inPos = 0 then .header else if s.inPos = headerSize then .codemap else .nowhere
  | .run => .pairs
  | .done => .nowhere
  | .fault => .nowhere

/-- The state as the decoder sees it (30_encoding.md R64). -/
def decodeCtx (s : State) : DecodeCtx :=
  { position := positionOf s, shortDelay := s.header.shortDelay, longDelay := s.header.longDelay,
    codemapLen := s.header.codemapLen, codemap := s.codemap, bank := s.bank, params := s.params }

end Sys2Proof.Machine
end

