-- ==== Sys2Proof/Machine/Delay.lean ====
section
/-!
DEFINITION. The delay pairs (43_transcoder.md R110, R111).
-/

namespace Sys2Proof.Machine

/-- DLY.S (R110): emitted as it stands; no bank or codemap access. -/
def execDlyS (p : Pair) (s : State) : Host.Outcome State Fault Refusal := .next (completePair p p.value s)

/-- DLY.L (R111): "the same as rule R110". -/
def execDlyL (p : Pair) (s : State) : Host.Outcome State Fault Refusal := .next (completePair p p.value s)

end Sys2Proof.Machine
end

