-- ==== Sys2Proof/Machine/LevelUnit.lean ====
section
/-!
DEFINITION. The level unit (42_level_unit.md): the attenuation functions and APPLY.
-/

namespace Sys2Proof.Machine

/-- `satsub_R(level) = max(level - R, 0)`, over the integers (R100). -/
def satsub (r : Nat) (level : Level) : Nat := (max ((level.toNat : Int) - (r : Int)) 0).toNat

/-- `ATTEN_FN(level)` for the function the model was given (00_scope.md R8; R100, R102; log 3). -/
def attenFn (f : AttenFn) (r : Nat) (level : Level) : Nat :=
  match f with
  | .satsub => satsub r level
  | .originalZero => 0
  | .table entries => entries[level.toFin]

/-- A natural number masked to its low 6 bits, `n & 0x3F` (R98). -/
def maskLevel (n : Nat) : Byte := BitVec.ofNat 8 n &&& 0x3F#8

/-- `(value & 0xC0) | (ATTEN_FN(value & 0x3F) & 0x3F)` (R97, R98). -/
def attenuate (P : Params) (r : Nat) (value : Byte) : Byte :=
  kslOf value ||| maskLevel (attenFn P.atten r (levelOf value))

/-- `modify` (R96): additive mode, or a carrier. -/
def modifies (P : Params) (bank : Memory) (algoReg realReg : Byte) : Bool :=
  algoBit bank algoReg || isCarrier P realReg

/-- The value APPLY returns for a real register whose algorithm register is known or not needed (R93). -/
def applyValue (P : Params) (r : Nat) (bank : Memory) (realReg value : Byte) : Option Byte :=
  if isLevelRegister realReg then
    (algorithmRegisterFor P realReg).map fun algoReg =>
      if modifies P bank algoReg realReg then attenuate P r value else value
  else some value

/-- APPLY (R93): the value returned and the state with `BANK[real_reg]` written (R94, R99), or `none` where it raises
UnmappedLevelRegister, with no bank write (R95). -/
def applyLevelUnit (realReg value : Byte) (s : State) : Option (Byte × State) :=
  (applyValue s.params s.reduction s.bank realReg value).map fun out => (out, writeBank realReg out s)

end Sys2Proof.Machine
end

