-- ==== Sys2Proof/Machine/LevelPairs.lean ====
section
/-!
DEFINITION. The level pairs (43_transcoder.md R113, R114, R115, R117).
-/

namespace Sys2Proof.Machine

/-- `BANK[real_reg] <- out; Emit(raw_reg, out)`, and the pair is counted (R113 to R115). -/
def storeAndComplete (p : Pair) (r out : Byte) (s : State) : State := completePair p out (writeBank r out s)

/-- LVL.FM.CAR (R113): the carrier's level is attenuated. -/
def execLvlFmCar (p : Pair) (s : State) : Host.Outcome State Fault Refusal :=
  withRealReg p s fun r => .next (storeAndComplete p r (attenuate s.params s.reduction p.value) s)

/-- LVL.FM.MOD (R114): `out <- val`. -/
def execLvlFmMod (p : Pair) (s : State) : Host.Outcome State Fault Refusal :=
  withRealReg p s fun r => .next (storeAndComplete p r p.value s)

/-- LVL.ADD (R115): "the same as rule R113". -/
def execLvlAdd (p : Pair) (s : State) : Host.Outcome State Fault Refusal :=
  withRealReg p s fun r => .next (storeAndComplete p r (attenuate s.params s.reduction p.value) s)

/-- LVL.UNMAPPED (R117): `raise UnmappedLevelRegister(pc, real_reg)`. -/
def execLvlUnmapped (p : Pair) (s : State) : Host.Outcome State Fault Refusal :=
  withRealReg p s fun r => .next (raiseFault .unmappedLevelRegister (.realRegister s.pc r) s)

end Sys2Proof.Machine
end

