-- ==== Sys2Proof/Machine/Load.lean ====
section
/-!
DEFINITION. The two operations of the LOAD phase (40_header_load.md).
-/

namespace Sys2Proof.Machine

/-- The header's fields and bytes are latched, and `in_pos <- 26` (R73). -/
def latchHeader (h : List Byte) (s : State) : State :=
  { s with header := parseHeader h, hdrBytes := h, inPos := headerSize }

/-- The codemap entries are latched, and `in_pos <- 26 + CODEMAP_LEN` (R77). -/
def latchCodemap (c : List Byte) (s : State) : State :=
  { s with codemap := c, inPos := headerSize + s.header.codemapLen.toNat }

/-- Both LOAD operations have succeeded (R79): the header and the codemap are emitted unchanged, and RUN is entered. -/
def enterRun (c : List Byte) (s : State) : State :=
  { emit c (emit s.hdrBytes s) with pc := 0, phase := .run }

/-- LOAD.HEADER (R73): the short header comes before the signature check (R75, R136). -/
def execLoadHeader (h : List Byte) (s : State) : Host.Outcome State Fault Refusal :=
  if s.phase = .load ∧ s.inPos = 0 then
    if h.length < headerSize then .next (raiseIoFailure s)
    else if bytesAt h 0 magicSize ≠ magic then .next (raiseFault .badSignature (.signature (bytesAt h 0 magicSize)) s)
    else .next (latchHeader h s)
  else .fault .requireUnmet

/-- LOAD.CODEMAP (R77), after LOAD.HEADER (R78), and the entry to RUN that follows its success (R79, log 10). -/
def execLoadCodemap (c : List Byte) (s : State) : Host.Outcome State Fault Refusal :=
  if s.phase = .load ∧ s.inPos = headerSize then
    if c.length < s.header.codemapLen.toNat then .next (raiseIoFailure s)
    else .next (enterRun (c.take s.header.codemapLen.toNat) (latchCodemap (c.take s.header.codemapLen.toNat) s))
  else .fault .requireUnmet

end Sys2Proof.Machine
end

