-- ==== Sys2Proof/Machine/Write.lean ====
section
/-!
DEFINITION. The plain register write (43_transcoder.md R112) and the compact index with no codemap entry (R116).
-/

namespace Sys2Proof.Machine

/-- WR (R112): `out <- APPLY(real_reg, val)`, which for the register this class is selected by is the non-level path
(42_level_unit.md R94); a raise inside APPLY is UnmappedLevelRegister (R95). -/
def execWr (p : Pair) (s : State) : Host.Outcome State Fault Refusal :=
  withRealReg p s fun r =>
    match applyLevelUnit r p.value s with
    | none => .next (raiseFault .unmappedLevelRegister (.realRegister s.pc r) s)
    | some (out, t) => .next (completePair p out t)

/-- XLAT.FAULT (R116): `raise CodemapIndexOutOfRange(pc, raw_reg)`. -/
def execXlatFault (p : Pair) (s : State) : Host.Outcome State Fault Refusal :=
  .next (raiseFault .codemapIndexOutOfRange (.rawRegister s.pc (rawReg p)) s)

end Sys2Proof.Machine
end

