-- ==== Sys2Proof/Machine/Dispatch.lean ====
section
/-!
DEFINITION. One arm for each operation of opcode_table.json.
-/

namespace Sys2Proof.Machine

def exec (i : Instr) (s : State) : Host.Outcome State Fault Refusal :=
  match i with
  | .loadHeader h => Sys2Proof.Machine.execLoadHeader h s
  | .loadCodemap c => Sys2Proof.Machine.execLoadCodemap c s
  | .dlyS p => Sys2Proof.Machine.execDlyS p s
  | .dlyL p => Sys2Proof.Machine.execDlyL p s
  | .xlatFault p => Sys2Proof.Machine.execXlatFault p s
  | .wr p => Sys2Proof.Machine.execWr p s
  | .lvlUnmapped p => Sys2Proof.Machine.execLvlUnmapped p s
  | .lvlAdd p => Sys2Proof.Machine.execLvlAdd p s
  | .lvlFmCar p => Sys2Proof.Machine.execLvlFmCar p s
  | .lvlFmMod p => Sys2Proof.Machine.execLvlFmMod p s

end Sys2Proof.Machine
end

