-- ==== Sys2Proof/Machine/Sequencer.lean ====
section
/-!
DEFINITION. The sequencer around the operations (43_transcoder.md R106, R125; 60_exceptions.md R135): what the next
step does, the fetch, and the placing of an instruction where the next step fetches it.
-/

namespace Sys2Proof.Machine

/-- What the next step does. -/
inductive Action where
  /-- The machine stops. -/
  | stop (why : Fault)
  /-- The sequencer itself moves to a state: a termination, or a host-reported failure. -/
  | move (t : State)
  /-- An operation is executed on the state. -/
  | execute (i : Instr) (s : State)
deriving DecidableEq, Repr

/-- The operation at `in_pos` (R109): a fetch and decode, which write no state. -/
def fetch (s : State) : Except DecodeError Instr := decode (decodeCtx s) (s.input.drop s.inPos)

/-- Fetch, and what follows from it: an operation, the end of the input (R108), or nothing to do (R73). -/
def fetchAction (s : State) : Action :=
  match fetch s with
  | .ok i => .execute i s
  | .error .shortPair => .move (endPass .truncated s)
  | .error .nothingDue => .stop .requireUnmet

/-- The count termination, checked before the read (R107). -/
def countReached (s : State) : Bool := decide (s.phase = .run) && decide (s.pc = s.header.pairCount)

/-- The step of a pass that has not ended, in the order of R135: the host's report, the count, the end of the input,
then the operation. The report is taken in every phase (R126, R130; log 18). -/
def liveAction (s : State) : Action :=
  if ioFailReported s then .move (raiseIoFailure (takeIoReport s))
  else if countReached s then .move (endPass .count (takeIoReport s))
  else fetchAction (takeIoReport s)

/-- What the next step does: a pass that has ended takes no further step (R20, R123, R134). -/
def nextAction (s : State) : Action :=
  match s.phase with
  | .done => .stop (.passDone s.endReason)
  | .fault => .stop (.passFaulted s.fault)
  | .load => liveAction s
  | .run => liveAction s

/-- The table's image (log 16): its header and codemap. -/
def tableImage : List Byte := encodeHeader tableHeader ++ tableCodemap

/-- A header where the next step reads it: LOAD with `in_pos` 0, and no failure reported. -/
def placeHeader (bytes : List Byte) (s : State) : State :=
  { s with phase := .load, inPos := 0, input := bytes, ioReports := [] }

/-- A codemap where the next step reads it: LOAD with `in_pos` 26 behind a header that gives its length. -/
def placeCodemap (bytes : List Byte) (s : State) : State :=
  { latchHeader (encodeHeader { tableHeader with codemapLen := BitVec.ofNat 8 bytes.length }) s with
    phase := .load, ioReports := []
    input := encodeHeader { tableHeader with codemapLen := BitVec.ofNat 8 bytes.length } ++ bytes }

/-- A pair where the next step reads it: the state LOAD leaves after the table's image, with the table's bank. -/
def placePair (bytes : List Byte) (s : State) : State :=
  { s with
    phase := .run, header := tableHeader, hdrBytes := encodeHeader tableHeader, codemap := tableCodemap
    params := { defaultParams with atten := s.params.atten }, bank := tableBank, pc := 0, ioReports := []
    out := tableImage, inPos := tableImage.length, input := tableImage ++ bytes }

/-- The table's instruction where the next step fetches it (log 16). -/
def placeTableWord (nbits w : Nat) (s : State) : State :=
  match tablePosition nbits with
  | .header => placeHeader (tableBytes nbits w) s
  | .codemap => placeCodemap (tableBytes nbits w) s
  | .pairs => placePair (tableBytes nbits w) s
  | .nowhere => s

end Sys2Proof.Machine
end

