-- ==== Sys2Proof/Machine/Step.lean ====
section
/-!
DEFINITION. One step of the block: one LOAD operation, one pair, or one termination (92_eei_decisions.md D1).
-/

namespace Sys2Proof.Machine

/-- One step (43_transcoder.md R106, R125). -/
def step (s : State) : Host.Outcome State Fault Refusal :=
  match nextAction s with
  | .stop why => .fault why
  | .move t => .next t
  | .execute i t => exec i t

/-- `s` with the opcode table's word where the next step fetches its instruction. Log 16. -/
def State.withFetchWord (s : State) (nbits w : Nat) : State := placeTableWord nbits w s

end Sys2Proof.Machine
end

