-- ==== Sys2Proof/WellFormed.lean ====
section
/-!
DEFINITION. When an operation is the one its bytes and its context select: the "match" column of opcode_table.json and
the class table R63, row by row. It is written from those, not from the ordered tree R62 that Decode.lean follows.
-/

namespace Sys2Proof

open Machine

/-- The pair's compact index is neither delay code (R63: "not a delay"). -/
def notDelay (c : DecodeCtx) (p : Pair) : Bool :=
  decide (maskedReg p ≠ c.shortDelay) && decide (maskedReg p ≠ c.longDelay)

/-- The pair is no delay, it has a codemap entry, and the entry, a real register, passes `test`. -/
def realRegIs (c : DecodeCtx) (p : Pair) (test : Byte → Bool) : Bool :=
  notDelay c p && (codemapEntry c.codemapLen c.codemap (maskedReg p)).any test

/-- The real register is a level register whose algorithm register, by `ALGO_MAP`, passes `test`. -/
def mappedLevelIs (c : DecodeCtx) (test : Byte → Bool) (r : Byte) : Bool :=
  isLevelRegister r && (algorithmRegisterFor c.params r).any test

/-- The operation is well formed in the context: it is at its place in the image, complete, and of the class the
context selects for it (R63; opcode_table.json "match"). -/
def WellFormed (c : DecodeCtx) : Instr → Bool
  | .loadHeader h => decide (c.position = .header) && decide (h.length = headerSize)
  | .loadCodemap e => decide (c.position = .codemap) && decide (e.length = c.codemapLen.toNat)
  | .dlyS p => decide (c.position = .pairs) && decide (maskedReg p = c.shortDelay)
  | .dlyL p => decide (c.position = .pairs) && decide (maskedReg p = c.longDelay) && decide (maskedReg p ≠ c.shortDelay)
  | .xlatFault p => decide (c.position = .pairs) && notDelay c p && decide (c.codemapLen ≤ maskedReg p)
  | .wr p => decide (c.position = .pairs) && realRegIs c p (fun r => !isLevelRegister r)
  | .lvlUnmapped p =>
    decide (c.position = .pairs)
    && realRegIs c p (fun r => isLevelRegister r && (algorithmRegisterFor c.params r).isNone)
  | .lvlAdd p => decide (c.position = .pairs) && realRegIs c p (mappedLevelIs c (fun a => algoBit c.bank a))
  | .lvlFmCar p =>
    decide (c.position = .pairs)
    && realRegIs c p (fun r => mappedLevelIs c (fun a => !algoBit c.bank a) r && isCarrier c.params r)
  | .lvlFmMod p =>
    decide (c.position = .pairs)
    && realRegIs c p (fun r => mappedLevelIs c (fun a => !algoBit c.bank a) r && !isCarrier c.params r)

end Sys2Proof
end

