-- ==== Sys2Proof/Safety.lean ====
section
/-!
DEFINITION. The terms claims are made in: what a completed pair and a fault leave (frames), the invariant of a pass,
the consolidated step of 43_transcoder.md R125, and the relations between two runs.
-/

namespace Sys2Proof.Machine

/-! ### Frames -/

/-- Everything a pair never touches is as before: the sequencer's status, the configuration, the host's inputs and the
parameters (10_state.md R26, R31, 20_memory.md R52). -/
structure PairFrame (s t : State) : Prop where
  phase     : t.phase = s.phase
  endReason : t.endReason = s.endReason
  fault     : t.fault = s.fault
  faultInfo : t.faultInfo = s.faultInfo
  header    : t.header = s.header
  hdrBytes  : t.hdrBytes = s.hdrBytes
  codemap   : t.codemap = s.codemap
  reduction : t.reduction = s.reduction
  input     : t.input = s.input
  ioReports : t.ioReports = s.ioReports
  params    : t.params = s.params

/-- The pair completed with the value byte `out` (R118, R19, R27), whatever it did to the bank. -/
structure PairCompleted (p : Pair) (out : Byte) (s t : State) : Prop where
  frame : PairFrame s t
  out   : t.out = s.out ++ [rawReg p, out]
  pc    : t.pc = s.pc + 1
  inPos : t.inPos = s.inPos + 2

/-- The bank of `t` is the bank of `s` with cell `r` holding `v`: every other cell reads as before. -/
def BankWritten (r v : Byte) (s t : State) : Prop :=
  ∀ a : Byte, t.bank.read a = if a = r then v else s.bank.read a

/-- Every bank cell reads as before. -/
def BankKept (s t : State) : Prop := ∀ a : Byte, t.bank.read a = s.bank.read a

/-- The fault was taken, and nothing else happened: no emit, no bank write, no advance (60_exceptions.md R132). -/
structure FaultTaken (cause : FaultCause) (info : FaultInfo) (s t : State) : Prop where
  phase     : t.phase = .fault
  fault     : t.fault = cause
  faultInfo : t.faultInfo = info
  endReason : t.endReason = s.endReason
  bank      : BankKept s t
  pc        : t.pc = s.pc
  header    : t.header = s.header
  hdrBytes  : t.hdrBytes = s.hdrBytes
  codemap   : t.codemap = s.codemap
  reduction : t.reduction = s.reduction
  inPos     : t.inPos = s.inPos
  out       : t.out = s.out
  input     : t.input = s.input
  params    : t.params = s.params

/-- The real register a pair names in a state: its codemap entry, where it has one (30_encoding.md R59). -/
def realOf (s : State) (p : Pair) : Option Byte := codemapEntry s.header.codemapLen s.codemap (maskedReg p)

/-! ### The invariant of a pass -/

/-- The byte offset of the first pair (20_memory.md R47). -/
def firstPair (s : State) : Nat := headerSize + s.header.codemapLen.toNat

/-- LOAD.HEADER has succeeded on the input (R73, R74). -/
structure HeaderLatched (s : State) : Prop where
  complete  : headerSize ≤ s.input.length
  bytes     : s.hdrBytes = s.input.take headerSize
  registers : s.header = parseHeader s.hdrBytes
  signature : s.header.signature = magic

/-- Where the LOAD phase stands: nothing emitted, counted or written yet, and `in_pos` at the header or, once the
header is latched, at the codemap (R47, R78, R133). -/
structure InLoad (s : State) : Prop where
  pc    : s.pc = 0
  out   : s.out = []
  bank  : s.bank = []
  place : s.inPos = 0 ∨ (s.inPos = headerSize ∧ HeaderLatched s)

/-- Where a pass stands after LOAD (R18, R19, R27, R82, R120): both loads have succeeded, `pc` pairs are consumed and
emitted, and the output starts with the input's header and codemap. -/
structure InPairs (s : State) : Prop where
  header      : HeaderLatched s
  codemap     : s.codemap = bytesAt s.input headerSize s.header.codemapLen.toNat
  codemapSize : s.codemap.length = s.header.codemapLen.toNat
  count       : s.pc.toNat ≤ s.header.pairCount.toNat
  inPos       : s.inPos = firstPair s + 2 * s.pc.toNat
  inBounds    : s.inPos ≤ s.input.length
  outSize     : s.out.length = s.inPos
  outHead     : s.out.take (firstPair s) = s.input.take (firstPair s)

/-- What each latched fault code says of the state it stopped in, and of `fault_info` (R126 to R130). -/
def FaultExplained (s : State) : Prop :=
  match s.fault with
  | .none => s.faultInfo = .empty
  | .badSignature =>
    InLoad s ∧ s.faultInfo = .signature (s.input.take magicSize) ∧ s.input.take magicSize ≠ magic
  | .codemapIndexOutOfRange =>
    InPairs s ∧ ∃ p : Pair, s.faultInfo = .rawRegister s.pc (rawReg p) ∧ s.header.codemapLen ≤ maskedReg p
  | .unmappedLevelRegister =>
    InPairs s ∧ ∃ r : Byte, s.faultInfo = .realRegister s.pc r ∧ isLevelRegister r = true
      ∧ algorithmRegisterFor s.params r = none
  | .ioFailure => (InLoad s ∨ InPairs s) ∧ s.faultInfo = .inputPosition s.inPos

/-- What each end reason says of the state the pass ended in (R107, R108). -/
def EndExplained (s : State) : Prop :=
  match s.endReason with
  | .none => True
  | .count => s.pc = s.header.pairCount
  | .truncated => s.pc ≠ s.header.pairCount ∧ s.input.length < s.inPos + 2

/-- Where the phase says the pass stands (R20). -/
def PhaseExplained (s : State) : Prop :=
  match s.phase with
  | .load => InLoad s
  | .run => InPairs s
  | .done => InPairs s
  | .fault => True

/-- The invariant of a pass: the bank keeps its canonical form, the latches agree with the phase (R20, R21), and the
phase, the end and the fault are explained by the state. -/
structure Inv (s : State) : Prop where
  bankWf   : s.bank.wf = true
  endLatch : s.endReason = .none ↔ s.phase ≠ .done
  faultLatch : s.fault = .none ↔ s.phase ≠ .fault
  phase    : PhaseExplained s
  ending   : EndExplained s
  fault    : FaultExplained s

/-! ### The consolidated step of R125 -/

/-- `Emit(raw_reg, out); pc <- pc + 1; in_pos <- in_pos + 2`, on R125's own last line. -/
def consolidatedEmit (raw out : Byte) (s : State) : State :=
  { s with out := s.out ++ [raw, out], pc := s.pc + 1, inPos := s.inPos + 2 }

/-- The bank branch of R125 for a real register `r`: the fault, or the bank write and the emission. -/
def consolidatedWrite (raw val r : Byte) (s : State) : State :=
  if 0x40#8 ≤ r ∧ r ≤ 0x55#8 then
    match algorithmRegisterFor s.params r with
    | none => { s with phase := .fault, fault := .unmappedLevelRegister, faultInfo := .realRegister s.pc r }
    | some a =>
      let out :=
        if s.bank.read a &&& 0x01#8 = 1#8 ∨ r ∈ s.params.carriers then
          (val &&& 0xC0#8) ||| (BitVec.ofNat 8 (attenFn s.params.atten s.reduction (levelOf val)) &&& 0x3F#8)
        else val
      consolidatedEmit raw out { s with bank := s.bank.write r out }
  else consolidatedEmit raw val { s with bank := s.bank.write r val }

/-- `STEP` of R125 after its `require phase == RUN`, on the state whose report has been taken. -/
def consolidatedPair (s : State) : State :=
  match s.input.drop s.inPos with
  | raw :: val :: _ =>
    if raw &&& 0x7F#8 = s.header.shortDelay ∨ raw &&& 0x7F#8 = s.header.longDelay then consolidatedEmit raw val s
    else if s.header.codemapLen ≤ raw &&& 0x7F#8 then
      { s with phase := .fault, fault := .codemapIndexOutOfRange, faultInfo := .rawRegister s.pc raw }
    else consolidatedWrite raw val (s.codemap.getD (raw &&& 0x7F#8).toNat 0) s
  | _ => { s with phase := .done, endReason := .truncated }

/-- `STEP` of R125 after its `require phase == RUN`. -/
def consolidatedStep (s : State) : State :=
  if ioFailReported s then
    { takeIoReport s with phase := .fault, fault := .ioFailure, faultInfo := .inputPosition s.inPos }
  else if s.pc = s.header.pairCount then { takeIoReport s with phase := .done, endReason := .count }
  else consolidatedPair (takeIoReport s)

/-! ### Relations between two runs -/

/-- The advisory header fields of R80. -/
structure Advisory where
  versionMajor : Word16
  versionMinor : Word16
  durationMs   : Word32
  hwType       : Byte
  format       : Byte
  compression  : Byte
deriving DecidableEq, Repr

/-- The same state with other advisory fields. -/
def withAdvisory (a : Advisory) (s : State) : State :=
  { s with header :=
      { s.header with
        versionMajor := a.versionMajor, versionMinor := a.versionMinor, durationMs := a.durationMs
        hwType := a.hwType, format := a.format, compression := a.compression } }

/-- The two banks agree on every cell that is not a level register. -/
def AgreeOffLevels (b c : Memory) : Prop := ∀ a : Byte, isLevelRegister a = false → b.read a = c.read a

/-- The pair of an operation with another bank-select bit. -/
def setBankSelect (b : BitVec 1) : Instr → Instr
  | .loadHeader h => .loadHeader h
  | .loadCodemap c => .loadCodemap c
  | .dlyS p => .dlyS { p with bank := b }
  | .dlyL p => .dlyL { p with bank := b }
  | .xlatFault p => .xlatFault { p with bank := b }
  | .wr p => .wr { p with bank := b }
  | .lvlUnmapped p => .lvlUnmapped { p with bank := b }
  | .lvlAdd p => .lvlAdd { p with bank := b }
  | .lvlFmCar p => .lvlFmCar { p with bank := b }
  | .lvlFmMod p => .lvlFmMod { p with bank := b }

/-- Two states that agree on everything but `OUT` and `fault_info`. -/
structure SameButOutput (s t : State) : Prop where
  phase     : t.phase = s.phase
  endReason : t.endReason = s.endReason
  fault     : t.fault = s.fault
  bank      : t.bank = s.bank
  pc        : t.pc = s.pc
  header    : t.header = s.header
  hdrBytes  : t.hdrBytes = s.hdrBytes
  codemap   : t.codemap = s.codemap
  reduction : t.reduction = s.reduction
  inPos     : t.inPos = s.inPos
  input     : t.input = s.input
  ioReports : t.ioReports = s.ioReports
  params    : t.params = s.params

/-- How the states `t` and `u` that the pair `p` and the same pair with bank select `b` lead to from `s` may differ
(43_transcoder.md R119, 60_exceptions.md R126): where the pair completed, in the register byte emitted; where it faulted,
in the raw register byte that `fault_info` records, if it records one. -/
structure SameButBankSelect (s : State) (p : Pair) (b : BitVec 1) (t u : State) : Prop where
  rest   : SameButOutput t u
  output :
    (t.pc = s.pc + 1 ∧ t.faultInfo = s.faultInfo ∧ u.faultInfo = s.faultInfo
      ∧ ∃ out, t.out = s.out ++ [rawReg p, out] ∧ u.out = s.out ++ [rawReg { p with bank := b }, out])
    ∨ (t.phase = .fault ∧ t.pc = s.pc ∧ t.out = s.out ∧ u.out = s.out
      ∧ (u.faultInfo = t.faultInfo
        ∨ (t.faultInfo = .rawRegister s.pc (rawReg p)
          ∧ u.faultInfo = .rawRegister s.pc (rawReg { p with bank := b }))))

/-- The next pair of the input is `(raw, val)`, and a step of the state consumes it unless it faults: RUN, no failure
reported, the count not reached. -/
structure PairDue (raw val : Byte) (s : State) : Prop where
  phase : s.phase = .run
  noIo  : ioFailReported s = false
  count : s.pc ≠ s.header.pairCount
  bytes : ∃ rest, s.input.drop s.inPos = raw :: val :: rest

end Sys2Proof.Machine
end

