-- ==== Sys2Proof/Certificates/Slice0/Obligations.lean ====
section
/-!
DEFINITION. The statements for the provers. Every docstring names the rule of spec/ its statement comes from.
-/

open Sys2Proof Sys2Proof.Machine

/-! ### Reset and the ends of a pass -/

/-- 70_reset_and_hazards.md R146: what reset leaves. (The configuration registers and the codemap are unspecified by
the rule, and nothing is said of them here.) -/
def Obligations.ResetLeavesTheSpecValues : Prop :=
  (∀ a : Byte, State.reset.bank.read a = 0x00#8)
  ∧ State.reset.phase = .load ∧ State.reset.endReason = .none
  ∧ State.reset.fault.code = 0 ∧ State.reset.faultInfo = .empty
  ∧ State.reset.pc = 0 ∧ State.reset.inPos = 0 ∧ State.reset.out = []

/-- The invariant of a pass holds right after reset (the first half of the invariant argument; R20, R32, R133). -/
def Obligations.ResetMeetsThePassInvariant : Prop := Inv State.reset

/-- Every step keeps the invariant of a pass, from every state that meets it: the bank's canonical form, the latches
that agree with the phase (R20, R21), the offsets and sizes (R18, R27, R120), the emitted header and codemap (R82), and
the explanation of every end and fault (R107, R108, R126 to R130). The canonical form is the model's own (log 8), and
that `in_pos` stands still at a fault its reading (log 11). -/
def Obligations.StepKeepsThePassInvariant : Prop :=
  ∀ s t : State, Inv s → step s = .next t → Inv t

/-- R20, R123, R134: no step leaves DONE or FAULT. That the model answers a named stop there is its own choice, log 9. -/
def Obligations.EndedPassTakesNoStep : Prop :=
  ∀ s : State,
    (s.phase = .done → step s = .fault (.passDone s.endReason))
    ∧ (s.phase = .fault → step s = .fault (.passFaulted s.fault))

/-- R107: with the count reached, the pass ends with `end = COUNT` before anything is read, whatever the input holds. -/
def Obligations.CountReachedEndsThePass : Prop :=
  ∀ s : State, s.phase = .run → ioFailReported s = false → s.pc = s.header.pairCount →
    step s = .next { s with phase := .done, endReason := .count, ioReports := s.ioReports.tail }

/-- R108: with fewer than 2 bytes left before the count is reached, the pass ends with `end = TRUNCATED`; the trailing
byte, where there is one, is not emitted. That `in_pos` stands still is log 11. -/
def Obligations.TruncatedInputEndsThePass : Prop :=
  ∀ s : State, s.phase = .run → ioFailReported s = false → s.pc ≠ s.header.pairCount →
    s.input.length < s.inPos + 2 →
    step s = .next { s with phase := .done, endReason := .truncated, ioReports := s.ioReports.tail }

/-- R130, R135: a host-reported failure is taken first, in every phase that takes a step, and is IOFailure at
`in_pos`. That this holds in LOAD too is log 18. -/
def Obligations.HostReportIsTakenFirst : Prop :=
  ∀ s : State, (s.phase = .load ∨ s.phase = .run) → ioFailReported s = true →
    ∃ t, step s = .next t ∧ FaultTaken .ioFailure (.inputPosition s.inPos) s t ∧ t.fault.code = 4

/-- R132: fault entry is precise. Any step that enters FAULT writes the phase and the two latches, emits nothing, writes
no bank cell, does not advance `pc`, and the state it leaves takes no further step. That `in_pos` stands still is log 11,
the named stop log 9. -/
def Obligations.FaultEntryIsPrecise : Prop :=
  ∀ s t : State, step s = .next t → t.phase = .fault →
    FaultTaken t.fault t.faultInfo s t ∧ step t = .fault (.passFaulted t.fault)

/-! ### The step -/

/-- R106, R109: a step runs the decoded instruction. In LOAD, or in RUN before the count is reached, and with no failure
reported, the operation decoded from the input at `in_pos` is executed; the step adds only that the host's report has
been taken (log 5).
-/
def Obligations.StepRunsTheDecodedInstruction : Prop :=
  ∀ (s : State) (i : Instr), (s.phase = .load ∨ (s.phase = .run ∧ s.pc ≠ s.header.pairCount)) →
    ioFailReported s = false → decode (decodeCtx s) (s.input.drop s.inPos) = .ok i →
    step s = exec i { s with ioReports := s.ioReports.tail }

/-- 43_transcoder.md R125: "the model's step function must compute exactly this". From every state in RUN whose codemap
is as long as `CODEMAP_LEN` says (which the invariant of a pass gives), the step is the consolidated function, written from
R125's text, with the head of the report list for `io_fail_reported()` (log 5); that `in_pos` stands still on a short read
and at a faulting pair is log 11. -/
def Obligations.RunStepIsTheConsolidatedFunction : Prop :=
  ∀ s : State, s.phase = .run → s.codemap.length = s.header.codemapLen.toNat → step s = .next (consolidatedStep s)

/-- R26, R31, R52: the configuration, the codemap, `R`, the input and the parameters are constant in RUN; in every phase
the input, `R` and the parameters are. -/
def Obligations.ConfigurationIsConstant : Prop :=
  ∀ s t : State, step s = .next t →
    t.input = s.input ∧ t.reduction = s.reduction ∧ t.params = s.params
    ∧ (s.phase = .run → t.header = s.header ∧ t.hdrBytes = s.hdrBytes ∧ t.codemap = s.codemap)

/-- R28, R19: output is append-only. LOAD appends the header and the codemap, on entry to RUN and never otherwise, and a
step in RUN appends exactly 2 bytes if it completes a pair and none if it does not. The entry to RUN within LOAD.CODEMAP's
step is log 10, and that `in_pos` stands still where no pair completes log 11. -/
def Obligations.OutputIsAppendOnly : Prop :=
  ∀ s t : State, step s = .next t →
    (s.phase = .load →
        (t.phase = .run ∧ t.out = s.out ++ s.hdrBytes ++ t.codemap) ∨ (t.phase ≠ .run ∧ t.out = s.out))
    ∧ (s.phase = .run →
        (t.phase = .run ∧ t.pc = s.pc + 1 ∧ t.inPos = s.inPos + 2 ∧ ∃ a b, t.out = s.out ++ [a, b])
        ∨ (t.phase ≠ .run ∧ t.pc = s.pc ∧ t.inPos = s.inPos ∧ t.out = s.out))

/-- R120: the size law, at the step that ends a pass. -/
def Obligations.OutputSizeAtTheEnd : Prop :=
  ∀ s t : State, Inv s → step s = .next t → t.phase = .done →
    t.out.length = headerSize + t.header.codemapLen.toNat + 2 * t.pc.toNat
    ∧ (t.endReason = .count →
        t.input.length = headerSize + t.header.codemapLen.toNat + 2 * t.header.pairCount.toNat →
        t.out.length = t.input.length)

/-! ### Encoding -/

/-- R55 to R62: decode and encode agree. Every well-formed operation, in every context and with every operand, is what
the decoder reads at the head of its own encoding, whatever follows it. -/
def Obligations.DecodeOfEncode : Prop :=
  ∀ (c : DecodeCtx) (i : Instr) (rest : List Byte), WellFormed c i = true → decode c (encode i ++ rest) = .ok i

/-- R63, R64: the decoder is total on pairs, and what it gives is well formed: of the class the table's own row selects,
and made of the two bytes it was given. -/
def Obligations.DecodedPairIsWellFormed : Prop :=
  ∀ (c : DecodeCtx) (raw val : Byte) (rest : List Byte), c.position = .pairs →
    c.codemap.length = c.codemapLen.toNat →
    ∃ i, decode c (raw :: val :: rest) = .ok i ∧ WellFormed c i = true ∧ encode i = [raw, val]

/-- R64: every pair gets exactly one class: two well-formed operations with the same two bytes are one. -/
def Obligations.ClassOfPairIsUnique : Prop :=
  ∀ (c : DecodeCtx) (i j : Instr), c.position = .pairs → WellFormed c i = true → WellFormed c j = true →
    encode i = encode j → i = j

/-- R55: the header image and its fields determine each other; no bit of the 26 bytes is dropped. -/
def Obligations.HeaderImageRoundTrip : Prop :=
  (∀ h : Header, h.signature.length = magicSize →
    (encodeHeader h).length = headerSize ∧ parseHeader (encodeHeader h) = h)
  ∧ (∀ b : List Byte, b.length = headerSize → encodeHeader (parseHeader b) = b)

/-- R56: the multi-byte header fields, by the rule's own formulas over the bytes at R55's offsets. -/
def Obligations.HeaderFieldsAreLittleEndian : Prop :=
  ∀ h : List Byte, h.length = headerSize →
    (parseHeader h).versionMajor = (h.getD 8 0).setWidth 16 ||| ((h.getD 9 0).setWidth 16 <<< 8)
    ∧ (parseHeader h).versionMinor = (h.getD 10 0).setWidth 16 ||| ((h.getD 11 0).setWidth 16 <<< 8)
    ∧ (parseHeader h).pairCount = (h.getD 12 0).setWidth 32 ||| ((h.getD 13 0).setWidth 32 <<< 8)
        ||| ((h.getD 14 0).setWidth 32 <<< 16) ||| ((h.getD 15 0).setWidth 32 <<< 24)
    ∧ (parseHeader h).durationMs = (h.getD 16 0).setWidth 32 ||| ((h.getD 17 0).setWidth 32 <<< 8)
        ||| ((h.getD 18 0).setWidth 32 <<< 16) ||| ((h.getD 19 0).setWidth 32 <<< 24)

/-- R59: a pair's operands. `bank_select` and `masked_reg` are masks of the raw register byte, the raw byte is kept, and
the real register is the codemap's entry at the masked register, where there is one. -/
def Obligations.PairOperands : Prop :=
  ∀ raw val : Byte,
    rawReg (pairOfBytes raw val) = raw ∧ (pairOfBytes raw val).value = val
    ∧ bankSelect (pairOfBytes raw val) = raw &&& 0x80#8 ∧ maskedReg (pairOfBytes raw val) = raw &&& 0x7F#8
    ∧ ∀ (len : Byte) (codemap : List Byte), codemap.length = len.toNat →
        codemapEntry len codemap (maskedReg (pairOfBytes raw val))
          = if raw &&& 0x7F#8 < len then some (codemap.getD (raw &&& 0x7F#8).toNat 0) else none

/-- R65: a delay code with bit 7 set matches no pair: no pair is a delay of that kind. -/
def Obligations.DelayCodeAbove7FNeverMatches : Prop :=
  ∀ (c : DecodeCtx) (p : Pair),
    (0x80#8 ≤ c.shortDelay → maskedReg p ≠ c.shortDelay ∧ decodePair c p ≠ .dlyS p)
    ∧ (0x80#8 ≤ c.longDelay → maskedReg p ≠ c.longDelay ∧ decodePair c p ≠ .dlyL p)

/-- R66: with equal delay codes a matching pair is DLY.S, none is DLY.L, and the two have one effect. -/
def Obligations.EqualDelayCodesDecodeShort : Prop :=
  ∀ (c : DecodeCtx) (p : Pair), c.shortDelay = c.longDelay →
    (maskedReg p = c.longDelay → decodePair c p = .dlyS p) ∧ decodePair c p ≠ .dlyL p
    ∧ ∀ s : State, exec (.dlyS p) s = exec (.dlyL p) s

/-- 95_test_vectors.md 2.4: words written out from R58 decode to the classes the table names there, and the header of
R73's example is read as it says. -/
def Obligations.SampleWordsDecode : Prop :=
  (∀ c : DecodeCtx, c.position = .pairs → c.shortDelay = 0x00#8 → c.longDelay = 0x02#8 → c.codemapLen = 2#8 →
    c.codemap = [0x00#8, 0x43#8] → c.bank = [] → c.params = defaultParams →
    decode c [0x80#8, 0x77#8] = .ok (.dlyS ⟨1#1, 0#7, 0x77#8⟩)
    ∧ decode c [0x82#8, 0x77#8] = .ok (.dlyL ⟨1#1, 2#7, 0x77#8⟩)
    ∧ decode c [0x01#8, 0x25#8] = .ok (.lvlFmCar ⟨0#1, 1#7, 0x25#8⟩)
    ∧ decode c [0x7F#8, 0x00#8] = .ok (.xlatFault ⟨0#1, 0x7F#7, 0x00#8⟩))
  ∧ ∀ h : List Byte,
      h = [0x44#8, 0x42#8, 0x52#8, 0x41#8, 0x57#8, 0x4F#8, 0x50#8, 0x4C#8, 2#8, 0#8, 0#8, 0#8, 7#8, 0#8, 0#8, 0#8,
           5#8, 0#8, 0#8, 0#8, 0#8, 0#8, 0#8, 0x10#8, 0x11#8, 3#8] →
      (parseHeader h).pairCount = 7#32 ∧ (parseHeader h).shortDelay = 0x10#8
      ∧ (parseHeader h).longDelay = 0x11#8 ∧ (parseHeader h).codemapLen = 3#8

/-! ### LOAD -/

/-- R73, R76: LOAD.HEADER completes on any 26 bytes that begin with the signature, checking no other field: the fields
and the bytes are latched, `in_pos` is 26, and nothing else changes. -/
def Obligations.LoadHeaderLatchesTheHeader : Prop :=
  ∀ (h : Header) (s : State), s.phase = .load → s.inPos = 0 → h.signature = magic →
    exec (.loadHeader (encodeHeader h)) s
      = .next { s with header := h, hdrBytes := encodeHeader h, inPos := 26 }

/-- R75: an input that ends inside the header is IOFailure, at whatever length, and no TruncatedStream stop; nothing is
emitted. That `in_pos` is still 0, and is what `fault_info` holds, is log 11. -/
def Obligations.ShortHeaderRaisesIoFailure : Prop :=
  ∀ s : State, s.phase = .load → s.inPos = 0 → ioFailReported s = false → s.input.length < 26 →
    ∃ t, step s = .next t ∧ FaultTaken .ioFailure (.inputPosition 0) s t ∧ t.fault.code = 4
      ∧ (s.endReason ≠ .truncated → t.endReason ≠ .truncated)

/-- R74: the signature comparison is exact over all 8 bytes, and comes before any other field is used: the step faults
with BadSignature, `OUT` as it was, exactly when the first 8 bytes differ from the signature's ASCII codes. The code and
`fault_info` are R126's; that `in_pos` stands still at the fault is log 11. -/
def Obligations.SignatureComparisonIsExact : Prop :=
  ∀ s : State, s.phase = .load → s.inPos = 0 → ioFailReported s = false → 26 ≤ s.input.length → s.out = [] →
    ∃ t, step s = .next t ∧ t.out = [] ∧
      (s.input.take 8 ≠ [0x44#8, 0x42#8, 0x52#8, 0x41#8, 0x57#8, 0x4F#8, 0x50#8, 0x4C#8] →
        FaultTaken .badSignature (.signature (s.input.take 8)) s t ∧ t.fault.code = 1)
      ∧ (s.input.take 8 = [0x44#8, 0x42#8, 0x52#8, 0x41#8, 0x57#8, 0x4F#8, 0x50#8, 0x4C#8] →
        t.phase = .load ∧ t.fault = s.fault ∧ t.inPos = 26)

/-- R77, R79: LOAD.CODEMAP completes on `CODEMAP_LEN` bytes (none, where it is 0): the entries are latched verbatim, the
header and the codemap are emitted unchanged, and RUN is entered with `pc` 0. That all this is one step is log 10. -/
def Obligations.LoadCodemapEntersRun : Prop :=
  ∀ (c : List Byte) (s : State), s.phase = .load → s.inPos = 26 → c.length = s.header.codemapLen.toNat →
    exec (.loadCodemap c) s
      = .next { s with codemap := c, inPos := 26 + s.header.codemapLen.toNat, out := s.out ++ s.hdrBytes ++ c,
                       pc := 0, phase := .run }

/-- R77, R136: an input that ends inside the codemap is IOFailure at `in_pos` 26, and nothing is emitted. (That the input
holds a whole header there is what the invariant of a pass says; that `in_pos` is still 26 is log 11.) -/
def Obligations.ShortCodemapRaisesIoFailure : Prop :=
  ∀ s : State, s.phase = .load → s.inPos = 26 → ioFailReported s = false →
    26 ≤ s.input.length → s.input.length < 26 + s.header.codemapLen.toNat →
    ∃ t, step s = .next t ∧ FaultTaken .ioFailure (.inputPosition 26) s t ∧ t.fault.code = 4

/-! ### The pair classes: what selects each, and what it does -/

/-- R110: DLY.S. -/
def Obligations.ShortDelayPassesThrough : Prop :=
  ∀ p : Pair,
    (∀ c : DecodeCtx, decodePair c p = .dlyS p ↔ maskedReg p = c.shortDelay)
    ∧ ∀ s : State, ∃ t, exec (.dlyS p) s = .next t ∧ PairCompleted p p.value s t ∧ BankKept s t

/-- R111: DLY.L. -/
def Obligations.LongDelayPassesThrough : Prop :=
  ∀ p : Pair,
    (∀ c : DecodeCtx, decodePair c p = .dlyL p ↔ maskedReg p = c.longDelay ∧ maskedReg p ≠ c.shortDelay)
    ∧ ∀ s : State, ∃ t, exec (.dlyL p) s = .next t ∧ PairCompleted p p.value s t ∧ BankKept s t

/-- R112: WR. The premise on the bank is the canonical form, which the invariant of a pass gives. -/
def Obligations.PlainWriteStoresAndPassesThrough : Prop :=
  ∀ p : Pair,
    (∀ c : DecodeCtx, decodePair c p = .wr p ↔
      notDelay c p = true ∧ ∃ r, codemapEntry c.codemapLen c.codemap (maskedReg p) = some r
        ∧ ¬ (0x40#8 ≤ r ∧ r ≤ 0x55#8))
    ∧ ∀ (s : State) (r : Byte), s.bank.wf = true → realOf s p = some r → ¬ (0x40#8 ≤ r ∧ r ≤ 0x55#8) →
        ∃ t, exec (.wr p) s = .next t ∧ PairCompleted p p.value s t ∧ BankWritten r p.value s t

/-- R93, R112: WR runs APPLY, so executed where its real register is a level register it attenuates or raises as APPLY
does. The decoder gives WR no such pair: that the meaning is the rule's pseudocode there too is the model's choice,
log 14. -/
def Obligations.WriteOfLevelRegisterIsApply : Prop :=
  ∀ (p : Pair) (s : State) (r : Byte), s.bank.wf = true → realOf s p = some r → isLevelRegister r = true →
    (algorithmRegisterFor s.params r = none →
      ∃ t, exec (.wr p) s = .next t ∧ FaultTaken .unmappedLevelRegister (.realRegister s.pc r) s t)
    ∧ ∀ a, algorithmRegisterFor s.params r = some a →
      ∃ t out, exec (.wr p) s = .next t ∧ PairCompleted p out s t ∧ BankWritten r out s t
        ∧ out = if s.bank.read a &&& 0x01#8 = 1#8 ∨ r ∈ s.params.carriers
            then attenuate s.params s.reduction p.value else p.value

/-- R113: LVL.FM.CAR. -/
def Obligations.CarrierLevelIsAttenuated : Prop :=
  ∀ p : Pair,
    (∀ c : DecodeCtx, decodePair c p = .lvlFmCar p ↔
      notDelay c p = true ∧ ∃ r a, codemapEntry c.codemapLen c.codemap (maskedReg p) = some r
        ∧ isLevelRegister r = true ∧ algorithmRegisterFor c.params r = some a
        ∧ Memory.read c.bank a &&& 0x01#8 = 0#8 ∧ r ∈ c.params.carriers)
    ∧ ∀ (s : State) (r : Byte), s.bank.wf = true → realOf s p = some r →
        ∃ t out, exec (.lvlFmCar p) s = .next t ∧ PairCompleted p out s t ∧ BankWritten r out s t
          ∧ out = (p.value &&& 0xC0#8)
              ||| (BitVec.ofNat 8 (attenFn s.params.atten s.reduction (levelOf p.value)) &&& 0x3F#8)

/-- R114: LVL.FM.MOD. -/
def Obligations.ModulatorLevelPassesThrough : Prop :=
  ∀ p : Pair,
    (∀ c : DecodeCtx, decodePair c p = .lvlFmMod p ↔
      notDelay c p = true ∧ ∃ r a, codemapEntry c.codemapLen c.codemap (maskedReg p) = some r
        ∧ isLevelRegister r = true ∧ algorithmRegisterFor c.params r = some a
        ∧ Memory.read c.bank a &&& 0x01#8 = 0#8 ∧ r ∉ c.params.carriers)
    ∧ ∀ (s : State) (r : Byte), s.bank.wf = true → realOf s p = some r →
        ∃ t, exec (.lvlFmMod p) s = .next t ∧ PairCompleted p p.value s t ∧ BankWritten r p.value s t

/-- R115: LVL.ADD. -/
def Obligations.AdditiveLevelIsAttenuated : Prop :=
  ∀ p : Pair,
    (∀ c : DecodeCtx, decodePair c p = .lvlAdd p ↔
      notDelay c p = true ∧ ∃ r a, codemapEntry c.codemapLen c.codemap (maskedReg p) = some r
        ∧ isLevelRegister r = true ∧ algorithmRegisterFor c.params r = some a
        ∧ Memory.read c.bank a &&& 0x01#8 = 1#8)
    ∧ ∀ (s : State) (r : Byte), s.bank.wf = true → realOf s p = some r →
        ∃ t out, exec (.lvlAdd p) s = .next t ∧ PairCompleted p out s t ∧ BankWritten r out s t
          ∧ out = (p.value &&& 0xC0#8)
              ||| (BitVec.ofNat 8 (attenFn s.params.atten s.reduction (levelOf p.value)) &&& 0x3F#8)

/-- R116: XLAT.FAULT. That `in_pos` stands still is log 11. -/
def Obligations.MissingCodemapEntryFaults : Prop :=
  ∀ p : Pair,
    (∀ c : DecodeCtx, c.codemap.length = c.codemapLen.toNat →
      (decodePair c p = .xlatFault p ↔ notDelay c p = true ∧ c.codemapLen ≤ maskedReg p))
    ∧ ∀ s : State, ∃ t, exec (.xlatFault p) s = .next t ∧ t.fault.code = 2 ∧ t.ioReports = s.ioReports
        ∧ FaultTaken .codemapIndexOutOfRange (.rawRegister s.pc (rawReg p)) s t

/-- R117: LVL.UNMAPPED. That `in_pos` stands still is log 11. -/
def Obligations.UnmappedLevelRegisterFaults : Prop :=
  ∀ p : Pair,
    (∀ c : DecodeCtx, decodePair c p = .lvlUnmapped p ↔
      notDelay c p = true ∧ ∃ r, codemapEntry c.codemapLen c.codemap (maskedReg p) = some r
        ∧ isLevelRegister r = true ∧ algorithmRegisterFor c.params r = none)
    ∧ ∀ (s : State) (r : Byte), realOf s p = some r →
        ∃ t, exec (.lvlUnmapped p) s = .next t ∧ t.fault.code = 3 ∧ t.ioReports = s.ioReports
          ∧ FaultTaken .unmappedLevelRegister (.realRegister s.pc r) s t

/-- 20_memory.md R36, R128: in every pair class that reads the codemap, an index at or above `CODEMAP_LEN` has no entry,
and an index with no entry is CodemapIndexOutOfRange. The decoder gives these classes no such pair: log 14; that `in_pos`
stands still is log 11. -/
def Obligations.EveryCodemapReadChecksItsIndex : Prop :=
  ∀ (p : Pair) (s : State) (i : Instr), i ∈ [Instr.wr p, .lvlUnmapped p, .lvlAdd p, .lvlFmCar p, .lvlFmMod p] →
    (s.header.codemapLen ≤ maskedReg p → realOf s p = none)
    ∧ (realOf s p = none →
        ∃ t, exec i s = .next t ∧ FaultTaken .codemapIndexOutOfRange (.rawRegister s.pc (rawReg p)) s t)

/-! ### Classifier and level unit -/

/-- R83, R84: the level registers, by the rule's own range; there are exactly 22. -/
def Obligations.LevelRegisterRange : Prop :=
  (∀ reg : Byte, isLevelRegister reg = true ↔ 0x40 ≤ reg.toNat ∧ reg.toNat ≤ 0x55)
  ∧ ((List.range 256).filter fun n => isLevelRegister (BitVec.ofNat 8 n)).length = 22

/-- R87, R91: the tables any model takes. `ALGO_MAP` has exactly 18 members, all of them level registers, and no value
of it is a level register; `CARRIER_SET` has exactly 9, all of them in the domain, and 0x43 is one. -/
def Obligations.TablesTakenMeetTheConditions : Prop :=
  ∀ P : Params,
    ((List.range 256).filter fun n => (algorithmRegisterFor P (BitVec.ofNat 8 n)).isSome).length = 18
    ∧ (∀ r a : Byte, algorithmRegisterFor P r = some a →
        (0x40#8 ≤ r ∧ r ≤ 0x55#8) ∧ ¬ (0x40#8 ≤ a ∧ a ≤ 0x55#8))
    ∧ ((List.range 256).filter fun n => isCarrier P (BitVec.ofNat 8 n)).length = 9
    ∧ (∀ r : Byte, isCarrier P r = true → ∃ a, algorithmRegisterFor P r = some a)
    ∧ isCarrier P 0x43#8 = true

/-- R86, R89 to R91: the default tables (the spec's own choice, log 2) meet the four conditions, each of the nine
algorithm registers governs exactly two level registers, and exactly 0x46, 0x47, 0x4E and 0x4F are unmapped level
registers. -/
def Obligations.DefaultTablesMeetTheConditions : Prop :=
  tablesValid defaultAlgoMap defaultCarriers = true
  ∧ (∀ ch : Fin 9, (defaultParams.algoMap.filter fun e => e.2 = 0xC0#8 + BitVec.ofNat 8 ch.val).length = 2)
  ∧ ∀ r : Byte, (isLevelRegister r = true ∧ algorithmRegisterFor defaultParams r = none)
      ↔ (r = 0x46#8 ∨ r = 0x47#8 ∨ r = 0x4E#8 ∨ r = 0x4F#8)

/-- R94: APPLY's non-level path stores the value unchanged, returns it, and cannot fault. -/
def Obligations.NonLevelPathOfApply : Prop :=
  ∀ (s : State) (r v : Byte), isLevelRegister r = false → s.bank.wf = true →
    ∃ t, applyLevelUnit r v s = some (v, t) ∧ BankWritten r v s t ∧ { t with bank := s.bank } = s

/-- R95, R96: APPLY on a level register: unmapped, it raises; mapped, bit 0 of the algorithm register and nothing else of
the bank decides, with the carrier test consulted in FM mode only. -/
def Obligations.ModifyDecisionOfApply : Prop :=
  ∀ (P : Params) (R : Nat) (bank : Memory) (r v : Byte), isLevelRegister r = true →
    (algorithmRegisterFor P r = none → applyValue P R bank r v = none)
    ∧ ∀ a, algorithmRegisterFor P r = some a →
        (bank.read a &&& 0x01#8 = 1#8 → applyValue P R bank r v = some (attenuate P R v))
        ∧ (bank.read a &&& 0x01#8 = 0#8 → r ∈ P.carriers → applyValue P R bank r v = some (attenuate P R v))
        ∧ (bank.read a &&& 0x01#8 = 0#8 → r ∉ P.carriers → applyValue P R bank r v = some v)

/-- R97, R98: whatever `ATTEN_FN` is, bits 7:6 of a modified value are the input's and bits 5:0 are the function's result
mod 64. -/
def Obligations.AttenuationKeepsKslAndMasksLevel : Prop :=
  ∀ (P : Params) (R : Nat) (v : Byte),
    attenuate P R v &&& 0xC0#8 = v &&& 0xC0#8
    ∧ (attenuate P R v &&& 0x3F#8).toNat = attenFn P.atten R (levelOf v) % 64

/-- R100, R101: the default attenuation function and its corner cases. -/
def Obligations.SaturatingSubtractCorners : Prop :=
  ∀ (R : Nat) (l : Level),
    ((satsub R l : Int) = max ((l.toNat : Int) - (R : Int)) 0)
    ∧ satsub 0 l = l.toNat ∧ (l.toNat ≤ R → satsub R l = 0) ∧ (63 ≤ R → satsub R l = 0)
    ∧ satsub R 0#6 = 0 ∧ satsub R l ≤ l.toNat ∧ satsub (min R 63) l = satsub R l

/-- R103: saturating subtraction composes exactly. -/
def Obligations.SaturatingSubtractComposes : Prop :=
  ∀ (a b : Nat) (l : Level), satsub b (BitVec.ofNat 6 (satsub a l)) = satsub (a + b) l

/-- R104: the laws of APPLY under `satsub_R`; with `R = 0` it returns its value for every input, off the level registers
too (an unmapped level register, which raises at any `R` by R117, returns nothing). -/
def Obligations.LawsOfApplyUnderSatsub : Prop :=
  ∀ (P : Params) (R : Nat) (v : Byte), P.atten = .satsub →
    attenuate P R v &&& 0xC0#8 = v &&& 0xC0#8
    ∧ attenuate P R v &&& 0x3F#8 ≤ v &&& 0x3F#8
    ∧ (attenuate P R v = v ↔ R = 0 ∨ v &&& 0x3F#8 = 0#8)
    ∧ (∀ (bank : Memory) (r a : Byte), isLevelRegister r = true → algorithmRegisterFor P r = some a →
        (modifies P bank a r = false → applyValue P R bank r v = some v) ∧ applyValue P 0 bank r v = some v)
    ∧ ∀ (bank : Memory) (r : Byte), isLevelRegister r = false → applyValue P 0 bank r v = some v

/-- R102: under `ATTEN_VARIANT = ORIGINAL_ZERO` every modified level is 0. -/
def Obligations.OriginalZeroVariant : Prop :=
  ∀ (P : Params) (R : Nat) (v : Byte), P.atten = .originalZero → attenuate P R v = v &&& 0xC0#8

/-! ### Order, and what cannot be observed -/

/-- R151, R154, R17: a WR to a channel's algorithm register decides, at the very next pair and for either bank-select bit,
whether that channel's level pairs are additive. -/
def Obligations.AlgorithmWriteGatesTheNextLevelPair : Prop :=
  ∀ (s t : State) (p q : Pair) (a r : Byte), s.bank.wf = true → realOf s p = some a → isLevelRegister a = false →
    realOf s q = some r → isLevelRegister r = true → algorithmRegisterFor s.params r = some a →
    notDelay (decodeCtx s) q = true → exec (.wr p) s = .next t →
    (decodePair (decodeCtx t) q = .lvlAdd q ↔ p.value &&& 0x01#8 = 1#8)

/-- R149: with a bank no pair has written, as reset leaves it, every channel is in FM mode: no pair is LVL.ADD. -/
def Obligations.UnwrittenBankIsFmMode : Prop :=
  ∀ (c : DecodeCtx) (p : Pair), c.bank = State.reset.bank → decodePair c p ≠ .lvlAdd p

/-- R119, R105: the bank-select bit routes the pair to the output and to nothing else: the class is the same with either
bit, and the effects differ at most in the register byte emitted, where the pair completes, and in the raw byte that
`fault_info` records by R126, where it faults; all else, the emitted value byte included, is the same. -/
def Obligations.BankSelectOnlyRoutes : Prop :=
  ∀ (p : Pair) (b : BitVec 1),
    (∀ c : DecodeCtx, decodePair c { p with bank := b } = setBankSelect b (decodePair c p))
    ∧ ∀ (c : DecodeCtx) (s t : State), exec (decodePair c p) s = .next t →
        ∃ u, exec (setBankSelect b (decodePair c p)) s = .next u ∧ SameButBankSelect s p b t u

/-- R80: the advisory fields are read by no step after LOAD.HEADER: with any others in their place, each step does the
same. -/
def Obligations.AdvisoryFieldsAreNeverRead : Prop :=
  ∀ (s t : State) (a : Advisory), ¬ (s.phase = .load ∧ s.inPos = 0) → step s = .next t →
    step (withAdvisory a s) = .next (withAdvisory a t)

/-- R33, R87: what a level cell holds changes no output. In states that agree on everything but the bank, and on the bank
outside the level registers, a step does the same, and the banks it leaves agree so again. -/
def Obligations.LevelCellsAreNeverObserved : Prop :=
  ∀ (s t : State) (bank : Memory), s.bank.wf = true → bank.wf = true → AgreeOffLevels s.bank bank → step s = .next t →
    ∃ bank', step { s with bank := bank } = .next { t with bank := bank' } ∧ AgreeOffLevels t.bank bank'
      ∧ bank'.wf = true

/-- R118, R97, R121: every step keeps it true that the output repeats the input's register bytes, and the top two bits of
its value bytes, position by position. -/
def Obligations.RegisterBytesAndTopBitsAreKept : Prop :=
  ∀ s t : State, Inv s → step s = .next t →
    (∀ k, k < s.out.length → s.out.getD k 0 &&& 0xC0#8 = s.input.getD k 0 &&& 0xC0#8) →
    (∀ k, k < s.pc.toNat → s.out.getD (firstPair s + 2 * k) 0 = s.input.getD (firstPair s + 2 * k) 0) →
    (∀ k, k < t.out.length → t.out.getD k 0 &&& 0xC0#8 = t.input.getD k 0 &&& 0xC0#8)
    ∧ ∀ k, k < t.pc.toNat → t.out.getD (firstPair t + 2 * k) 0 = t.input.getD (firstPair t + 2 * k) 0

/-- R122: the zero-reduction identity. With `satsub_0`, every step keeps the output equal to the input's first bytes. -/
def Obligations.ZeroReductionIdentity : Prop :=
  ∀ s t : State, Inv s → s.params.atten = .satsub → s.reduction = 0 → step s = .next t →
    s.out = s.input.take s.out.length → t.out = t.input.take t.out.length

/-- R148, R103: a second pass over a first pass's output composes. Where a pass that reduces by `a` (state `s`) consumes a
pair and emits `(raw, out)`, a pass that reduces by `b` and is due `(raw, out)` (state `u`) and a pass that reduces by
`a + b` and is due the original pair (state `w`), with banks that agree outside the level registers, emit the same pair,
and their banks agree so again. -/
def Obligations.SecondPassComposes : Prop :=
  ∀ (s s' u w : State) (raw val out : Byte),
    s.params.atten = .satsub → u.params = s.params → w.params = s.params →
    w.reduction = s.reduction + u.reduction → u.header = s.header → w.header = s.header →
    u.codemap = s.codemap → w.codemap = s.codemap →
    s.bank.wf = true → u.bank.wf = true → w.bank.wf = true →
    AgreeOffLevels s.bank u.bank → AgreeOffLevels s.bank w.bank →
    PairDue raw val s → PairDue raw out u → PairDue raw val w →
    step s = .next s' → s'.out = s.out ++ [raw, out] →
    ∃ u' w' x, step u = .next u' ∧ step w = .next w'
      ∧ u'.out = u.out ++ [raw, x] ∧ w'.out = w.out ++ [raw, x]
      ∧ AgreeOffLevels s'.bank u'.bank ∧ AgreeOffLevels s'.bank w'.bank
end

