-- ==== Sys2Proof/Laws/Memory.lean ====
section
/-!
SUPPORT. The laws of the bank: read after write, and that every memory operation keeps the canonical form.
-/

namespace Sys2Proof.Machine

theorem Memory.wfFrom_cons_iff (lo k : Nat) (w : Byte) (rest : Memory) :
    Memory.wfFrom lo ((k, w) :: rest) = true ↔
      lo ≤ k ∧ k < 256 ∧ w ≠ Memory.unlisted ∧ Memory.wfFrom (k + 1) rest = true := by
  simp [Memory.wfFrom, and_assoc]

theorem Memory.wfFrom_weaken {m : Memory} {lo lo' : Nat} (h : lo' ≤ lo) (hm : Memory.wfFrom lo m = true) :
    Memory.wfFrom lo' m = true := by
  cases m with
  | nil => rfl
  | cons c rest =>
    obtain ⟨k, w⟩ := c
    rw [Memory.wfFrom_cons_iff] at hm ⊢
    exact ⟨h.trans hm.1, hm.2⟩

/-- An address below every listed one reads as unlisted. -/
theorem Memory.read_below {m : Memory} {lo : Nat} (hm : Memory.wfFrom lo m = true) {a : Byte} (ha : a.toNat < lo) :
    m.read a = Memory.unlisted := by
  induction m generalizing lo with
  | nil => rfl
  | cons c rest ih =>
    obtain ⟨k, w⟩ := c
    rw [Memory.wfFrom_cons_iff] at hm
    have hk : ¬ k = a.toNat := by omega
    rw [Memory.read, if_neg hk]
    exact ih hm.2.2.2 (by omega)

theorem Memory.cons_wfFrom {lo : Nat} {a v : Byte} {rest : Memory} (ha : lo ≤ a.toNat)
    (hr : Memory.wfFrom (a.toNat + 1) rest = true) : Memory.wfFrom lo (Memory.cons a v rest) = true := by
  unfold Memory.cons
  split
  · exact Memory.wfFrom_weaken (by omega) hr
  · exact (Memory.wfFrom_cons_iff ..).2 ⟨ha, a.isLt, ‹_›, hr⟩

theorem Memory.write_wfFrom {m : Memory} {lo : Nat} {a v : Byte} (ha : lo ≤ a.toNat)
    (hm : Memory.wfFrom lo m = true) : Memory.wfFrom lo (m.write a v) = true := by
  induction m generalizing lo with
  | nil => exact Memory.cons_wfFrom ha rfl
  | cons c rest ih =>
    obtain ⟨k, w⟩ := c
    have h := (Memory.wfFrom_cons_iff ..).1 hm
    rw [Memory.write]
    split
    · exact (Memory.wfFrom_cons_iff ..).2 ⟨h.1, h.2.1, h.2.2.1, ih (by omega) h.2.2.2⟩
    · split
      · exact Memory.cons_wfFrom ha (by subst_vars; exact h.2.2.2)
      · exact Memory.cons_wfFrom ha ((Memory.wfFrom_cons_iff ..).2 ⟨by omega, h.2⟩)

/-- A write keeps the canonical form. -/
theorem Memory.write_wf {m : Memory} (a v : Byte) (hm : m.wf = true) : (m.write a v).wf = true :=
  Memory.write_wfFrom (Nat.zero_le _) hm

theorem Memory.read_cons {lo : Nat} {a v b : Byte} {rest : Memory} (ha : lo = a.toNat + 1)
    (hr : Memory.wfFrom lo rest = true) :
    Memory.read (Memory.cons a v rest) b = if b = a then v else rest.read b := by
  unfold Memory.cons
  by_cases hb : b = a
  · subst hb
    split
    · rw [if_pos rfl, Memory.read_below hr (by omega)]; exact Eq.symm ‹_›
    · simp [Memory.read]
  · have hn : ¬ a.toNat = b.toNat := fun h => hb (BitVec.eq_of_toNat_eq h.symm)
    split <;> simp [Memory.read, hn]

theorem Memory.read_write_wfFrom {m : Memory} {lo : Nat} (hm : Memory.wfFrom lo m = true) (a v b : Byte) :
    (m.write a v).read b = if b = a then v else m.read b := by
  induction m generalizing lo with
  | nil => exact Memory.read_cons rfl rfl
  | cons c rest ih =>
    obtain ⟨k, w⟩ := c
    have h := (Memory.wfFrom_cons_iff ..).1 hm
    rw [Memory.write]
    split
    · rename_i hlt
      rw [Memory.read, Memory.read]
      by_cases hb : k = b.toNat
      · have hne : b ≠ a := by rintro rfl; omega
        simp [hb, hne]
      · simp only [if_neg hb]
        exact ih h.2.2.2
    · split
      · rename_i _ heq
        rw [Memory.read_cons (by omega) h.2.2.2, Memory.read]
        by_cases hb : b = a
        · simp [hb]
        · have hn : ¬ k = b.toNat := fun hk => hb (BitVec.eq_of_toNat_eq (by omega))
          simp [hb, hn]
      · exact Memory.read_cons rfl ((Memory.wfFrom_cons_iff ..).2 ⟨by omega, h.2⟩)

/-- A read after a write: the written cell gives the value, every other cell reads as before. -/
theorem Memory.read_write {m : Memory} (hm : m.wf = true) (a v b : Byte) :
    (m.write a v).read b = if b = a then v else m.read b :=
  Memory.read_write_wfFrom hm a v b

theorem Memory.eq_of_wfFrom_read {m n : Memory} {lo : Nat} (hm : Memory.wfFrom lo m = true)
    (hn : Memory.wfFrom lo n = true) (h : ∀ a, m.read a = n.read a) : m = n := by
  induction m generalizing n lo with
  | nil =>
    cases n with
    | nil => rfl
    | cons c rest =>
      obtain ⟨k, w⟩ := c
      have hc := (Memory.wfFrom_cons_iff ..).1 hn
      have := h (BitVec.ofNat 8 k)
      have hk : k = (BitVec.ofNat 8 k).toNat := by simp; omega
      rw [Memory.read, Memory.read, if_pos hk] at this
      exact absurd this.symm hc.2.2.1
  | cons c rest ih =>
    obtain ⟨k, w⟩ := c
    have hc := (Memory.wfFrom_cons_iff ..).1 hm
    have hk : k = (BitVec.ofNat 8 k).toNat := by simp; omega
    cases n with
    | nil =>
      have := h (BitVec.ofNat 8 k)
      rw [Memory.read, Memory.read, if_pos hk] at this
      exact absurd this hc.2.2.1
    | cons d rest' =>
      obtain ⟨k', w'⟩ := d
      have hd := (Memory.wfFrom_cons_iff ..).1 hn
      have hk' : k' = (BitVec.ofNat 8 k').toNat := by simp; omega
      have hkk : k = k' := by
        rcases Nat.lt_trichotomy k k' with hlt | heq | hgt
        · have := h (BitVec.ofNat 8 k)
          rw [Memory.read, if_pos hk, Memory.read_below (lo := k')
            ((Memory.wfFrom_cons_iff ..).2 ⟨le_rfl, hd.2⟩) (by omega)] at this
          exact absurd this hc.2.2.1
        · exact heq
        · have := h (BitVec.ofNat 8 k')
          rw [Memory.read_below (lo := k) ((Memory.wfFrom_cons_iff ..).2 ⟨le_rfl, hc.2⟩) (by omega),
            Memory.read, if_pos hk'] at this
          exact absurd this.symm hd.2.2.1
      subst hkk
      have hw : w = w' := by
        have := h (BitVec.ofNat 8 k)
        rwa [Memory.read, if_pos hk, Memory.read, if_pos hk] at this
      subst hw
      rw [ih hc.2.2.2 hd.2.2.2 fun a => ?_]
      by_cases ha : k = a.toNat
      · rw [Memory.read_below hc.2.2.2 (by omega), Memory.read_below hd.2.2.2 (by omega)]
      · have := h a
        rwa [Memory.read, if_neg ha, Memory.read, if_neg ha] at this

/-- The form is canonical: banks that read alike are equal data. -/
theorem Memory.eq_of_read {m n : Memory} (hm : m.wf = true) (hn : n.wf = true) (h : ∀ a, m.read a = n.read a) :
    m = n :=
  Memory.eq_of_wfFrom_read hm hn h

/-- The bank after reset has the canonical form. -/
theorem State.reset_bank_wf : State.reset.bank.wf = true := rfl

end Sys2Proof.Machine
end

