-- ==== Sys2Proof/Laws/State.lean ====
section
/-!
SUPPORT. One lemma for each field of the state under each named update, so that no later proof unfolds a record update.
-/

namespace Sys2Proof.Machine

@[simp] theorem raiseFault_phase (cause : FaultCause) (info : FaultInfo) (s : State) : (raiseFault cause info s).phase = .fault := rfl
@[simp] theorem raiseFault_endReason (cause : FaultCause) (info : FaultInfo) (s : State) : (raiseFault cause info s).endReason = s.endReason := rfl
@[simp] theorem raiseFault_fault (cause : FaultCause) (info : FaultInfo) (s : State) : (raiseFault cause info s).fault = cause := rfl
@[simp] theorem raiseFault_faultInfo (cause : FaultCause) (info : FaultInfo) (s : State) : (raiseFault cause info s).faultInfo = info := rfl
@[simp] theorem raiseFault_bank (cause : FaultCause) (info : FaultInfo) (s : State) : (raiseFault cause info s).bank = s.bank := rfl
@[simp] theorem raiseFault_pc (cause : FaultCause) (info : FaultInfo) (s : State) : (raiseFault cause info s).pc = s.pc := rfl
@[simp] theorem raiseFault_header (cause : FaultCause) (info : FaultInfo) (s : State) : (raiseFault cause info s).header = s.header := rfl
@[simp] theorem raiseFault_hdrBytes (cause : FaultCause) (info : FaultInfo) (s : State) : (raiseFault cause info s).hdrBytes = s.hdrBytes := rfl
@[simp] theorem raiseFault_codemap (cause : FaultCause) (info : FaultInfo) (s : State) : (raiseFault cause info s).codemap = s.codemap := rfl
@[simp] theorem raiseFault_reduction (cause : FaultCause) (info : FaultInfo) (s : State) : (raiseFault cause info s).reduction = s.reduction := rfl
@[simp] theorem raiseFault_inPos (cause : FaultCause) (info : FaultInfo) (s : State) : (raiseFault cause info s).inPos = s.inPos := rfl
@[simp] theorem raiseFault_out (cause : FaultCause) (info : FaultInfo) (s : State) : (raiseFault cause info s).out = s.out := rfl
@[simp] theorem raiseFault_input (cause : FaultCause) (info : FaultInfo) (s : State) : (raiseFault cause info s).input = s.input := rfl
@[simp] theorem raiseFault_ioReports (cause : FaultCause) (info : FaultInfo) (s : State) : (raiseFault cause info s).ioReports = s.ioReports := rfl
@[simp] theorem raiseFault_params (cause : FaultCause) (info : FaultInfo) (s : State) : (raiseFault cause info s).params = s.params := rfl

@[simp] theorem raiseIoFailure_phase (s : State) : (raiseIoFailure s).phase = .fault := rfl
@[simp] theorem raiseIoFailure_endReason (s : State) : (raiseIoFailure s).endReason = s.endReason := rfl
@[simp] theorem raiseIoFailure_fault (s : State) : (raiseIoFailure s).fault = .ioFailure := rfl
@[simp] theorem raiseIoFailure_faultInfo (s : State) : (raiseIoFailure s).faultInfo = .inputPosition s.inPos := rfl
@[simp] theorem raiseIoFailure_bank (s : State) : (raiseIoFailure s).bank = s.bank := rfl
@[simp] theorem raiseIoFailure_pc (s : State) : (raiseIoFailure s).pc = s.pc := rfl
@[simp] theorem raiseIoFailure_header (s : State) : (raiseIoFailure s).header = s.header := rfl
@[simp] theorem raiseIoFailure_hdrBytes (s : State) : (raiseIoFailure s).hdrBytes = s.hdrBytes := rfl
@[simp] theorem raiseIoFailure_codemap (s : State) : (raiseIoFailure s).codemap = s.codemap := rfl
@[simp] theorem raiseIoFailure_reduction (s : State) : (raiseIoFailure s).reduction = s.reduction := rfl
@[simp] theorem raiseIoFailure_inPos (s : State) : (raiseIoFailure s).inPos = s.inPos := rfl
@[simp] theorem raiseIoFailure_out (s : State) : (raiseIoFailure s).out = s.out := rfl
@[simp] theorem raiseIoFailure_input (s : State) : (raiseIoFailure s).input = s.input := rfl
@[simp] theorem raiseIoFailure_ioReports (s : State) : (raiseIoFailure s).ioReports = s.ioReports := rfl
@[simp] theorem raiseIoFailure_params (s : State) : (raiseIoFailure s).params = s.params := rfl

@[simp] theorem endPass_phase (why : EndReason) (s : State) : (endPass why s).phase = .done := rfl
@[simp] theorem endPass_endReason (why : EndReason) (s : State) : (endPass why s).endReason = why := rfl
@[simp] theorem endPass_fault (why : EndReason) (s : State) : (endPass why s).fault = s.fault := rfl
@[simp] theorem endPass_faultInfo (why : EndReason) (s : State) : (endPass why s).faultInfo = s.faultInfo := rfl
@[simp] theorem endPass_bank (why : EndReason) (s : State) : (endPass why s).bank = s.bank := rfl
@[simp] theorem endPass_pc (why : EndReason) (s : State) : (endPass why s).pc = s.pc := rfl
@[simp] theorem endPass_header (why : EndReason) (s : State) : (endPass why s).header = s.header := rfl
@[simp] theorem endPass_hdrBytes (why : EndReason) (s : State) : (endPass why s).hdrBytes = s.hdrBytes := rfl
@[simp] theorem endPass_codemap (why : EndReason) (s : State) : (endPass why s).codemap = s.codemap := rfl
@[simp] theorem endPass_reduction (why : EndReason) (s : State) : (endPass why s).reduction = s.reduction := rfl
@[simp] theorem endPass_inPos (why : EndReason) (s : State) : (endPass why s).inPos = s.inPos := rfl
@[simp] theorem endPass_out (why : EndReason) (s : State) : (endPass why s).out = s.out := rfl
@[simp] theorem endPass_input (why : EndReason) (s : State) : (endPass why s).input = s.input := rfl
@[simp] theorem endPass_ioReports (why : EndReason) (s : State) : (endPass why s).ioReports = s.ioReports := rfl
@[simp] theorem endPass_params (why : EndReason) (s : State) : (endPass why s).params = s.params := rfl

@[simp] theorem writeBank_phase (a v : Byte) (s : State) : (writeBank a v s).phase = s.phase := rfl
@[simp] theorem writeBank_endReason (a v : Byte) (s : State) : (writeBank a v s).endReason = s.endReason := rfl
@[simp] theorem writeBank_fault (a v : Byte) (s : State) : (writeBank a v s).fault = s.fault := rfl
@[simp] theorem writeBank_faultInfo (a v : Byte) (s : State) : (writeBank a v s).faultInfo = s.faultInfo := rfl
@[simp] theorem writeBank_bank (a v : Byte) (s : State) : (writeBank a v s).bank = s.bank.write a v := rfl
@[simp] theorem writeBank_pc (a v : Byte) (s : State) : (writeBank a v s).pc = s.pc := rfl
@[simp] theorem writeBank_header (a v : Byte) (s : State) : (writeBank a v s).header = s.header := rfl
@[simp] theorem writeBank_hdrBytes (a v : Byte) (s : State) : (writeBank a v s).hdrBytes = s.hdrBytes := rfl
@[simp] theorem writeBank_codemap (a v : Byte) (s : State) : (writeBank a v s).codemap = s.codemap := rfl
@[simp] theorem writeBank_reduction (a v : Byte) (s : State) : (writeBank a v s).reduction = s.reduction := rfl
@[simp] theorem writeBank_inPos (a v : Byte) (s : State) : (writeBank a v s).inPos = s.inPos := rfl
@[simp] theorem writeBank_out (a v : Byte) (s : State) : (writeBank a v s).out = s.out := rfl
@[simp] theorem writeBank_input (a v : Byte) (s : State) : (writeBank a v s).input = s.input := rfl
@[simp] theorem writeBank_ioReports (a v : Byte) (s : State) : (writeBank a v s).ioReports = s.ioReports := rfl
@[simp] theorem writeBank_params (a v : Byte) (s : State) : (writeBank a v s).params = s.params := rfl

@[simp] theorem emit_phase (bytes : List Byte) (s : State) : (emit bytes s).phase = s.phase := rfl
@[simp] theorem emit_endReason (bytes : List Byte) (s : State) : (emit bytes s).endReason = s.endReason := rfl
@[simp] theorem emit_fault (bytes : List Byte) (s : State) : (emit bytes s).fault = s.fault := rfl
@[simp] theorem emit_faultInfo (bytes : List Byte) (s : State) : (emit bytes s).faultInfo = s.faultInfo := rfl
@[simp] theorem emit_bank (bytes : List Byte) (s : State) : (emit bytes s).bank = s.bank := rfl
@[simp] theorem emit_pc (bytes : List Byte) (s : State) : (emit bytes s).pc = s.pc := rfl
@[simp] theorem emit_header (bytes : List Byte) (s : State) : (emit bytes s).header = s.header := rfl
@[simp] theorem emit_hdrBytes (bytes : List Byte) (s : State) : (emit bytes s).hdrBytes = s.hdrBytes := rfl
@[simp] theorem emit_codemap (bytes : List Byte) (s : State) : (emit bytes s).codemap = s.codemap := rfl
@[simp] theorem emit_reduction (bytes : List Byte) (s : State) : (emit bytes s).reduction = s.reduction := rfl
@[simp] theorem emit_inPos (bytes : List Byte) (s : State) : (emit bytes s).inPos = s.inPos := rfl
@[simp] theorem emit_out (bytes : List Byte) (s : State) : (emit bytes s).out = s.out ++ bytes := rfl
@[simp] theorem emit_input (bytes : List Byte) (s : State) : (emit bytes s).input = s.input := rfl
@[simp] theorem emit_ioReports (bytes : List Byte) (s : State) : (emit bytes s).ioReports = s.ioReports := rfl
@[simp] theorem emit_params (bytes : List Byte) (s : State) : (emit bytes s).params = s.params := rfl

@[simp] theorem advancePair_phase (s : State) : (advancePair s).phase = s.phase := rfl
@[simp] theorem advancePair_endReason (s : State) : (advancePair s).endReason = s.endReason := rfl
@[simp] theorem advancePair_fault (s : State) : (advancePair s).fault = s.fault := rfl
@[simp] theorem advancePair_faultInfo (s : State) : (advancePair s).faultInfo = s.faultInfo := rfl
@[simp] theorem advancePair_bank (s : State) : (advancePair s).bank = s.bank := rfl
@[simp] theorem advancePair_pc (s : State) : (advancePair s).pc = s.pc + 1 := rfl
@[simp] theorem advancePair_header (s : State) : (advancePair s).header = s.header := rfl
@[simp] theorem advancePair_hdrBytes (s : State) : (advancePair s).hdrBytes = s.hdrBytes := rfl
@[simp] theorem advancePair_codemap (s : State) : (advancePair s).codemap = s.codemap := rfl
@[simp] theorem advancePair_reduction (s : State) : (advancePair s).reduction = s.reduction := rfl
@[simp] theorem advancePair_inPos (s : State) : (advancePair s).inPos = s.inPos + 2 := rfl
@[simp] theorem advancePair_out (s : State) : (advancePair s).out = s.out := rfl
@[simp] theorem advancePair_input (s : State) : (advancePair s).input = s.input := rfl
@[simp] theorem advancePair_ioReports (s : State) : (advancePair s).ioReports = s.ioReports := rfl
@[simp] theorem advancePair_params (s : State) : (advancePair s).params = s.params := rfl

@[simp] theorem completePair_phase (p : Pair) (o : Byte) (s : State) : (completePair p o s).phase = s.phase := rfl
@[simp] theorem completePair_endReason (p : Pair) (o : Byte) (s : State) : (completePair p o s).endReason = s.endReason := rfl
@[simp] theorem completePair_fault (p : Pair) (o : Byte) (s : State) : (completePair p o s).fault = s.fault := rfl
@[simp] theorem completePair_faultInfo (p : Pair) (o : Byte) (s : State) : (completePair p o s).faultInfo = s.faultInfo := rfl
@[simp] theorem completePair_bank (p : Pair) (o : Byte) (s : State) : (completePair p o s).bank = s.bank := rfl
@[simp] theorem completePair_pc (p : Pair) (o : Byte) (s : State) : (completePair p o s).pc = s.pc + 1 := rfl
@[simp] theorem completePair_header (p : Pair) (o : Byte) (s : State) : (completePair p o s).header = s.header := rfl
@[simp] theorem completePair_hdrBytes (p : Pair) (o : Byte) (s : State) : (completePair p o s).hdrBytes = s.hdrBytes := rfl
@[simp] theorem completePair_codemap (p : Pair) (o : Byte) (s : State) : (completePair p o s).codemap = s.codemap := rfl
@[simp] theorem completePair_reduction (p : Pair) (o : Byte) (s : State) : (completePair p o s).reduction = s.reduction := rfl
@[simp] theorem completePair_inPos (p : Pair) (o : Byte) (s : State) : (completePair p o s).inPos = s.inPos + 2 := rfl
@[simp] theorem completePair_out (p : Pair) (o : Byte) (s : State) : (completePair p o s).out = s.out ++ [rawReg p, o] := rfl
@[simp] theorem completePair_input (p : Pair) (o : Byte) (s : State) : (completePair p o s).input = s.input := rfl
@[simp] theorem completePair_ioReports (p : Pair) (o : Byte) (s : State) : (completePair p o s).ioReports = s.ioReports := rfl
@[simp] theorem completePair_params (p : Pair) (o : Byte) (s : State) : (completePair p o s).params = s.params := rfl

@[simp] theorem storeAndComplete_phase (p : Pair) (r o : Byte) (s : State) : (storeAndComplete p r o s).phase = s.phase := rfl
@[simp] theorem storeAndComplete_endReason (p : Pair) (r o : Byte) (s : State) : (storeAndComplete p r o s).endReason = s.endReason := rfl
@[simp] theorem storeAndComplete_fault (p : Pair) (r o : Byte) (s : State) : (storeAndComplete p r o s).fault = s.fault := rfl
@[simp] theorem storeAndComplete_faultInfo (p : Pair) (r o : Byte) (s : State) : (storeAndComplete p r o s).faultInfo = s.faultInfo := rfl
@[simp] theorem storeAndComplete_bank (p : Pair) (r o : Byte) (s : State) : (storeAndComplete p r o s).bank = s.bank.write r o := rfl
@[simp] theorem storeAndComplete_pc (p : Pair) (r o : Byte) (s : State) : (storeAndComplete p r o s).pc = s.pc + 1 := rfl
@[simp] theorem storeAndComplete_header (p : Pair) (r o : Byte) (s : State) : (storeAndComplete p r o s).header = s.header := rfl
@[simp] theorem storeAndComplete_hdrBytes (p : Pair) (r o : Byte) (s : State) : (storeAndComplete p r o s).hdrBytes = s.hdrBytes := rfl
@[simp] theorem storeAndComplete_codemap (p : Pair) (r o : Byte) (s : State) : (storeAndComplete p r o s).codemap = s.codemap := rfl
@[simp] theorem storeAndComplete_reduction (p : Pair) (r o : Byte) (s : State) : (storeAndComplete p r o s).reduction = s.reduction := rfl
@[simp] theorem storeAndComplete_inPos (p : Pair) (r o : Byte) (s : State) : (storeAndComplete p r o s).inPos = s.inPos + 2 := rfl
@[simp] theorem storeAndComplete_out (p : Pair) (r o : Byte) (s : State) : (storeAndComplete p r o s).out = s.out ++ [rawReg p, o] := rfl
@[simp] theorem storeAndComplete_input (p : Pair) (r o : Byte) (s : State) : (storeAndComplete p r o s).input = s.input := rfl
@[simp] theorem storeAndComplete_ioReports (p : Pair) (r o : Byte) (s : State) : (storeAndComplete p r o s).ioReports = s.ioReports := rfl
@[simp] theorem storeAndComplete_params (p : Pair) (r o : Byte) (s : State) : (storeAndComplete p r o s).params = s.params := rfl

@[simp] theorem takeIoReport_phase (s : State) : (takeIoReport s).phase = s.phase := rfl
@[simp] theorem takeIoReport_endReason (s : State) : (takeIoReport s).endReason = s.endReason := rfl
@[simp] theorem takeIoReport_fault (s : State) : (takeIoReport s).fault = s.fault := rfl
@[simp] theorem takeIoReport_faultInfo (s : State) : (takeIoReport s).faultInfo = s.faultInfo := rfl
@[simp] theorem takeIoReport_bank (s : State) : (takeIoReport s).bank = s.bank := rfl
@[simp] theorem takeIoReport_pc (s : State) : (takeIoReport s).pc = s.pc := rfl
@[simp] theorem takeIoReport_header (s : State) : (takeIoReport s).header = s.header := rfl
@[simp] theorem takeIoReport_hdrBytes (s : State) : (takeIoReport s).hdrBytes = s.hdrBytes := rfl
@[simp] theorem takeIoReport_codemap (s : State) : (takeIoReport s).codemap = s.codemap := rfl
@[simp] theorem takeIoReport_reduction (s : State) : (takeIoReport s).reduction = s.reduction := rfl
@[simp] theorem takeIoReport_inPos (s : State) : (takeIoReport s).inPos = s.inPos := rfl
@[simp] theorem takeIoReport_out (s : State) : (takeIoReport s).out = s.out := rfl
@[simp] theorem takeIoReport_input (s : State) : (takeIoReport s).input = s.input := rfl
@[simp] theorem takeIoReport_ioReports (s : State) : (takeIoReport s).ioReports = s.ioReports.tail := rfl
@[simp] theorem takeIoReport_params (s : State) : (takeIoReport s).params = s.params := rfl

@[simp] theorem latchHeader_phase (h : List Byte) (s : State) : (latchHeader h s).phase = s.phase := rfl
@[simp] theorem latchHeader_endReason (h : List Byte) (s : State) : (latchHeader h s).endReason = s.endReason := rfl
@[simp] theorem latchHeader_fault (h : List Byte) (s : State) : (latchHeader h s).fault = s.fault := rfl
@[simp] theorem latchHeader_faultInfo (h : List Byte) (s : State) : (latchHeader h s).faultInfo = s.faultInfo := rfl
@[simp] theorem latchHeader_bank (h : List Byte) (s : State) : (latchHeader h s).bank = s.bank := rfl
@[simp] theorem latchHeader_pc (h : List Byte) (s : State) : (latchHeader h s).pc = s.pc := rfl
@[simp] theorem latchHeader_header (h : List Byte) (s : State) : (latchHeader h s).header = parseHeader h := rfl
@[simp] theorem latchHeader_hdrBytes (h : List Byte) (s : State) : (latchHeader h s).hdrBytes = h := rfl
@[simp] theorem latchHeader_codemap (h : List Byte) (s : State) : (latchHeader h s).codemap = s.codemap := rfl
@[simp] theorem latchHeader_reduction (h : List Byte) (s : State) : (latchHeader h s).reduction = s.reduction := rfl
@[simp] theorem latchHeader_inPos (h : List Byte) (s : State) : (latchHeader h s).inPos = headerSize := rfl
@[simp] theorem latchHeader_out (h : List Byte) (s : State) : (latchHeader h s).out = s.out := rfl
@[simp] theorem latchHeader_input (h : List Byte) (s : State) : (latchHeader h s).input = s.input := rfl
@[simp] theorem latchHeader_ioReports (h : List Byte) (s : State) : (latchHeader h s).ioReports = s.ioReports := rfl
@[simp] theorem latchHeader_params (h : List Byte) (s : State) : (latchHeader h s).params = s.params := rfl

@[simp] theorem latchCodemap_phase (c : List Byte) (s : State) : (latchCodemap c s).phase = s.phase := rfl
@[simp] theorem latchCodemap_endReason (c : List Byte) (s : State) : (latchCodemap c s).endReason = s.endReason := rfl
@[simp] theorem latchCodemap_fault (c : List Byte) (s : State) : (latchCodemap c s).fault = s.fault := rfl
@[simp] theorem latchCodemap_faultInfo (c : List Byte) (s : State) : (latchCodemap c s).faultInfo = s.faultInfo := rfl
@[simp] theorem latchCodemap_bank (c : List Byte) (s : State) : (latchCodemap c s).bank = s.bank := rfl
@[simp] theorem latchCodemap_pc (c : List Byte) (s : State) : (latchCodemap c s).pc = s.pc := rfl
@[simp] theorem latchCodemap_header (c : List Byte) (s : State) : (latchCodemap c s).header = s.header := rfl
@[simp] theorem latchCodemap_hdrBytes (c : List Byte) (s : State) : (latchCodemap c s).hdrBytes = s.hdrBytes := rfl
@[simp] theorem latchCodemap_codemap (c : List Byte) (s : State) : (latchCodemap c s).codemap = c := rfl
@[simp] theorem latchCodemap_reduction (c : List Byte) (s : State) : (latchCodemap c s).reduction = s.reduction := rfl
@[simp] theorem latchCodemap_inPos (c : List Byte) (s : State) : (latchCodemap c s).inPos = headerSize + s.header.codemapLen.toNat := rfl
@[simp] theorem latchCodemap_out (c : List Byte) (s : State) : (latchCodemap c s).out = s.out := rfl
@[simp] theorem latchCodemap_input (c : List Byte) (s : State) : (latchCodemap c s).input = s.input := rfl
@[simp] theorem latchCodemap_ioReports (c : List Byte) (s : State) : (latchCodemap c s).ioReports = s.ioReports := rfl
@[simp] theorem latchCodemap_params (c : List Byte) (s : State) : (latchCodemap c s).params = s.params := rfl

@[simp] theorem enterRun_phase (c : List Byte) (s : State) : (enterRun c s).phase = .run := rfl
@[simp] theorem enterRun_endReason (c : List Byte) (s : State) : (enterRun c s).endReason = s.endReason := rfl
@[simp] theorem enterRun_fault (c : List Byte) (s : State) : (enterRun c s).fault = s.fault := rfl
@[simp] theorem enterRun_faultInfo (c : List Byte) (s : State) : (enterRun c s).faultInfo = s.faultInfo := rfl
@[simp] theorem enterRun_bank (c : List Byte) (s : State) : (enterRun c s).bank = s.bank := rfl
@[simp] theorem enterRun_pc (c : List Byte) (s : State) : (enterRun c s).pc = 0 := rfl
@[simp] theorem enterRun_header (c : List Byte) (s : State) : (enterRun c s).header = s.header := rfl
@[simp] theorem enterRun_hdrBytes (c : List Byte) (s : State) : (enterRun c s).hdrBytes = s.hdrBytes := rfl
@[simp] theorem enterRun_codemap (c : List Byte) (s : State) : (enterRun c s).codemap = s.codemap := rfl
@[simp] theorem enterRun_reduction (c : List Byte) (s : State) : (enterRun c s).reduction = s.reduction := rfl
@[simp] theorem enterRun_inPos (c : List Byte) (s : State) : (enterRun c s).inPos = s.inPos := rfl
@[simp] theorem enterRun_out (c : List Byte) (s : State) : (enterRun c s).out = s.out ++ s.hdrBytes ++ c := rfl
@[simp] theorem enterRun_input (c : List Byte) (s : State) : (enterRun c s).input = s.input := rfl
@[simp] theorem enterRun_ioReports (c : List Byte) (s : State) : (enterRun c s).ioReports = s.ioReports := rfl
@[simp] theorem enterRun_params (c : List Byte) (s : State) : (enterRun c s).params = s.params := rfl

end Sys2Proof.Machine
end

