-- ==== Sys2Proof/Laws/Ops.lean ====
section
/-!
SUPPORT. For each shared operation, once, everything it can do: the lemmas the provers cite instead of unfolding.
-/

namespace Sys2Proof.Machine

/-- The codemap lookup: an entry is given only for an index below `CODEMAP_LEN` (20_memory.md R36). -/
theorem codemapEntry_eq_some {len m r : Byte} {cm : List Byte} :
    codemapEntry len cm m = some r ↔ m < len ∧ cm[m.toNat]? = some r := by
  unfold codemapEntry
  split <;> simp_all

/-- With a codemap as long as `CODEMAP_LEN` says, an index has no entry exactly at or above it. -/
theorem codemapEntry_eq_none {len m : Byte} {cm : List Byte} (h : cm.length = len.toNat) :
    codemapEntry len cm m = none ↔ len ≤ m := by
  unfold codemapEntry
  split
  · rename_i hlt
    have : m.toNat < len.toNat := hlt
    constructor
    · intro hn
      rw [List.getElem?_eq_none_iff] at hn
      omega
    · intro hle
      have : len.toNat ≤ m.toNat := hle
      omega
  · rename_i hge
    simpa using hge

/-- What `withRealReg` does: the real register's continuation, or CodemapIndexOutOfRange. -/
theorem withRealReg_cases (p : Pair) (s : State) (k : Byte → Host.Outcome State Fault Refusal) :
    (∃ r, codemapEntry s.header.codemapLen s.codemap (maskedReg p) = some r ∧ withRealReg p s k = k r) ∨
    (codemapEntry s.header.codemapLen s.codemap (maskedReg p) = none ∧
      withRealReg p s k = .next (raiseFault .codemapIndexOutOfRange (.rawRegister s.pc (rawReg p)) s)) := by
  unfold withRealReg
  split
  · exact .inr ⟨‹_›, rfl⟩
  · exact .inl ⟨_, ‹_›, rfl⟩

theorem withRealReg_some {p : Pair} {s : State} {r : Byte} (k : Byte → Host.Outcome State Fault Refusal)
    (h : codemapEntry s.header.codemapLen s.codemap (maskedReg p) = some r) : withRealReg p s k = k r := by
  simp [withRealReg, h]

theorem withRealReg_none {p : Pair} {s : State} (k : Byte → Host.Outcome State Fault Refusal)
    (h : codemapEntry s.header.codemapLen s.codemap (maskedReg p) = none) :
    withRealReg p s k = .next (raiseFault .codemapIndexOutOfRange (.rawRegister s.pc (rawReg p)) s) := by
  simp [withRealReg, h]

/-- What a table gives for a register is one of its entries. -/
theorem lookupAlgo_mem {m : List (Byte × Byte)} {r a : Byte} (h : lookupAlgo m r = some a) : (r, a) ∈ m := by
  induction m with
  | nil => cases h
  | cons e rest ih =>
    rw [lookupAlgo] at h
    split at h
    · subst_vars
      cases h
      exact .head _
    · exact .tail _ (ih h)

/-- Only level registers have an algorithm register (R86, R91). -/
theorem algorithmRegisterFor_isLevel {P : Params} {r a : Byte} (h : algorithmRegisterFor P r = some a) :
    isLevelRegister r = true := by
  have hv := P.valid
  simp only [tablesValid, Bool.and_eq_true, List.all_eq_true] at hv
  exact hv.1.1.1.1.1.2 _ (lookupAlgo_mem h)

/-- No algorithm register is a level register (R87). -/
theorem algorithmRegisterFor_notLevel {P : Params} {r a : Byte} (h : algorithmRegisterFor P r = some a) :
    isLevelRegister a = false := by
  have hv := P.valid
  simp only [tablesValid, Bool.and_eq_true, List.all_eq_true] at hv
  simpa using hv.1.1.1.1.2 _ (lookupAlgo_mem h)

/-- Every carrier has an algorithm register (R91). -/
theorem isCarrier_mapped {P : Params} {r : Byte} (h : isCarrier P r = true) :
    ∃ a, algorithmRegisterFor P r = some a := by
  have hv := P.valid
  simp only [tablesValid, Bool.and_eq_true, List.all_eq_true] at hv
  exact Option.isSome_iff_exists.1 (hv.1.2 r (by simpa [isCarrier] using h))

/-- APPLY on a register that is no level register (R94). -/
theorem applyValue_nonLevel (P : Params) (r : Nat) (bank : Memory) {reg : Byte} (value : Byte)
    (h : isLevelRegister reg = false) : applyValue P r bank reg value = some value := by
  simp [applyValue, h]

/-- APPLY on a level register with no algorithm register (R95). -/
theorem applyValue_unmapped {P : Params} (r : Nat) (bank : Memory) {reg : Byte} (value : Byte)
    (h : isLevelRegister reg = true) (hn : algorithmRegisterFor P reg = none) :
    applyValue P r bank reg value = none := by
  simp [applyValue, h, hn]

/-- APPLY on a mapped level register (R96). -/
theorem applyValue_mapped {P : Params} (r : Nat) (bank : Memory) {reg a : Byte} (value : Byte)
    (h : isLevelRegister reg = true) (ha : algorithmRegisterFor P reg = some a) :
    applyValue P r bank reg value = some (if modifies P bank a reg then attenuate P r value else value) := by
  simp [applyValue, h, ha]

/-- What APPLY can do: return a value with its cell written, or nothing where it raises. -/
theorem applyLevelUnit_cases (reg value : Byte) (s : State) :
    (∃ out, applyValue s.params s.reduction s.bank reg value = some out ∧
      applyLevelUnit reg value s = some (out, writeBank reg out s)) ∨
    (applyValue s.params s.reduction s.bank reg value = none ∧ applyLevelUnit reg value s = none) := by
  unfold applyLevelUnit
  cases applyValue s.params s.reduction s.bank reg value with
  | none => exact .inr ⟨rfl, rfl⟩
  | some out => exact .inl ⟨out, rfl, rfl⟩

/-- What a pass that has not ended can do next (R135), in order. -/
theorem liveAction_cases (s : State) :
    (ioFailReported s = true ∧ liveAction s = .move (raiseIoFailure (takeIoReport s))) ∨
    (ioFailReported s = false ∧ countReached s = true ∧
      liveAction s = .move (endPass .count (takeIoReport s))) ∨
    (ioFailReported s = false ∧ countReached s = false ∧ liveAction s = fetchAction (takeIoReport s)) := by
  unfold liveAction
  cases ioFailReported s <;> cases countReached s <;> simp

/-- What a fetch can lead to. -/
theorem fetchAction_cases (s : State) :
    (∃ i, fetch s = .ok i ∧ fetchAction s = .execute i s) ∨
    (fetch s = .error .shortPair ∧ fetchAction s = .move (endPass .truncated s)) ∨
    (fetch s = .error .nothingDue ∧ fetchAction s = .stop .requireUnmet) := by
  unfold fetchAction
  split
  · exact .inl ⟨_, ‹_›, rfl⟩
  · exact .inr (.inl ⟨‹_›, rfl⟩)
  · exact .inr (.inr ⟨‹_›, rfl⟩)

/-- What a step that answers a next state did: the inversion of `step`. -/
theorem step_cases {s t : State} (h : step s = .next t) :
    (s.phase = .load ∨ s.phase = .run) ∧
    ((ioFailReported s = true ∧ t = raiseIoFailure (takeIoReport s)) ∨
     (ioFailReported s = false ∧ countReached s = true ∧ t = endPass .count (takeIoReport s)) ∨
     (ioFailReported s = false ∧ countReached s = false ∧ fetch (takeIoReport s) = .error .shortPair ∧
       t = endPass .truncated (takeIoReport s)) ∨
     (ioFailReported s = false ∧ countReached s = false ∧
       ∃ i, fetch (takeIoReport s) = .ok i ∧ exec i (takeIoReport s) = .next t)) := by
  have key : nextAction s = liveAction s → ((ioFailReported s = true ∧ t = raiseIoFailure (takeIoReport s)) ∨
     (ioFailReported s = false ∧ countReached s = true ∧ t = endPass .count (takeIoReport s)) ∨
     (ioFailReported s = false ∧ countReached s = false ∧ fetch (takeIoReport s) = .error .shortPair ∧
       t = endPass .truncated (takeIoReport s)) ∨
     (ioFailReported s = false ∧ countReached s = false ∧
       ∃ i, fetch (takeIoReport s) = .ok i ∧ exec i (takeIoReport s) = .next t)) := by
    intro hn
    have hs := h
    unfold step at hs
    rw [hn] at hs
    rcases liveAction_cases s with ⟨h1, h2⟩ | ⟨h1, h2, h3⟩ | ⟨h1, h2, h3⟩
    · rw [h2] at hs; exact .inl ⟨h1, by injection hs with e; exact e.symm⟩
    · rw [h3] at hs; exact .inr (.inl ⟨h1, h2, by injection hs with e; exact e.symm⟩)
    · rw [h3] at hs
      rcases fetchAction_cases (takeIoReport s) with ⟨i, hf, ha⟩ | ⟨hf, ha⟩ | ⟨hf, ha⟩
      · rw [ha] at hs; exact .inr (.inr (.inr ⟨h1, h2, i, hf, hs⟩))
      · rw [ha] at hs; exact .inr (.inr (.inl ⟨h1, h2, hf, by injection hs with e; exact e.symm⟩))
      · rw [ha] at hs; cases hs
  cases hp : s.phase with
  | done => simp [step, nextAction, hp] at h
  | fault => simp [step, nextAction, hp] at h
  | load => exact ⟨.inl rfl, key (by unfold nextAction; rw [hp])⟩
  | run => exact ⟨.inr rfl, key (by unfold nextAction; rw [hp])⟩

/-- What the decode tree can give for a pair, with what selects it (30_encoding.md R62, R63). -/
theorem decodePair_cases (c : DecodeCtx) (p : Pair) :
    (maskedReg p = c.shortDelay ∧ decodePair c p = .dlyS p) ∨
    (maskedReg p ≠ c.shortDelay ∧ maskedReg p = c.longDelay ∧ decodePair c p = .dlyL p) ∨
    (maskedReg p ≠ c.shortDelay ∧ maskedReg p ≠ c.longDelay ∧
      ((codemapEntry c.codemapLen c.codemap (maskedReg p) = none ∧ decodePair c p = .xlatFault p) ∨
       ∃ r, codemapEntry c.codemapLen c.codemap (maskedReg p) = some r ∧
        ((isLevelRegister r = false ∧ decodePair c p = .wr p) ∨
         (isLevelRegister r = true ∧ algorithmRegisterFor c.params r = none ∧ decodePair c p = .lvlUnmapped p) ∨
         ∃ a, isLevelRegister r = true ∧ algorithmRegisterFor c.params r = some a ∧
          ((algoBit c.bank a = true ∧ decodePair c p = .lvlAdd p) ∨
           (algoBit c.bank a = false ∧ isCarrier c.params r = true ∧ decodePair c p = .lvlFmCar p) ∨
           (algoBit c.bank a = false ∧ isCarrier c.params r = false ∧ decodePair c p = .lvlFmMod p))))) := by
  unfold decodePair
  by_cases hs : maskedReg p = c.shortDelay
  · simp [hs]
  by_cases hl : maskedReg p = c.longDelay
  · rw [hl] at hs; simp [hl, hs]
  refine .inr (.inr ⟨hs, hl, ?_⟩)
  simp only [hs, hl, if_false]
  cases he : codemapEntry c.codemapLen c.codemap (maskedReg p) with
  | none => exact .inl ⟨rfl, rfl⟩
  | some r =>
    refine .inr ⟨r, rfl, ?_⟩
    simp only [decodeReal]
    cases hr : isLevelRegister r with
    | false => exact .inl ⟨rfl, by simp⟩
    | true =>
      refine .inr ?_
      cases ha : algorithmRegisterFor c.params r with
      | none => exact .inl ⟨rfl, rfl, by simp⟩
      | some a =>
        refine .inr ⟨a, rfl, rfl, ?_⟩
        simp only [decodeMappedLevel, if_true]
        cases algoBit c.bank a <;> cases isCarrier c.params r <;> simp

/-! ### Operands and predicates -/

/-- The raw register byte of the pair made of two bytes is the first of them (R58). -/
theorem rawReg_pairOfBytes (raw val : Byte) : rawReg (pairOfBytes raw val) = raw := by
  simp only [rawReg, pairOfBytes]
  revert raw
  decide

theorem maskedReg_pairOfBytes (raw val : Byte) : maskedReg (pairOfBytes raw val) = raw &&& 0x7F#8 := by
  simp [maskedReg, rawReg_pairOfBytes]

/-- A pair is the pair made of its own two bytes (R58). -/
theorem pairOfBytes_rawReg (p : Pair) : pairOfBytes (rawReg p) p.value = p := by
  obtain ⟨b, i, v⟩ := p
  simp only [rawReg, pairOfBytes, Pair.mk.injEq, and_true]
  revert b i
  decide

/-- The bank-select bit is no part of the masked register (R37). -/
theorem maskedReg_bank (p : Pair) (b : BitVec 1) : maskedReg { p with bank := b } = maskedReg p := by
  obtain ⟨b', i, v⟩ := p
  simp only [maskedReg, rawReg]
  revert b b' i
  decide

theorem isLevelRegister_eq_true {r : Byte} : isLevelRegister r = true ↔ 0x40#8 ≤ r ∧ r ≤ 0x55#8 := by
  simp [isLevelRegister, levelLo, levelHi]

theorem isLevelRegister_eq_false {r : Byte} : isLevelRegister r = false ↔ ¬ (0x40#8 ≤ r ∧ r ≤ 0x55#8) := by
  simp [isLevelRegister, levelLo, levelHi]

theorem algoBit_eq_true {b : Memory} {a : Byte} : algoBit b a = true ↔ b.read a &&& 0x01#8 = 1#8 := by
  simp [algoBit, algoBitMask]

theorem algoBit_eq_false {b : Memory} {a : Byte} : algoBit b a = false ↔ b.read a &&& 0x01#8 = 0#8 := by
  have bit : ∀ x : Byte, x &&& 1#8 = 1#8 ∨ x &&& 1#8 = 0#8 := by decide
  rcases bit (b.read a) with h | h <;> simp [algoBit, algoBitMask, h]

theorem isCarrier_eq_true {P : Params} {r : Byte} : isCarrier P r = true ↔ r ∈ P.carriers := by simp [isCarrier]

theorem isCarrier_eq_false {P : Params} {r : Byte} : isCarrier P r = false ↔ r ∉ P.carriers := by simp [isCarrier]

/-- On levels, the maximum over the integers is truncated subtraction of naturals. -/
theorem satsub_eq_sub (R : Nat) (l : Level) : satsub R l = l.toNat - R := by
  simp only [satsub]
  omega

/-! ### What a completed pair and a fault entry leave -/

theorem completePair_completed (p : Pair) (o : Byte) (s : State) (b : Memory) :
    PairCompleted p o s (completePair p o { s with bank := b }) := by
  constructor
  · constructor <;> rfl
  all_goals rfl

/-- A fault entry in the state a step took its report in. -/
theorem raiseFault_taken (cause : FaultCause) (info : FaultInfo) (s : State) :
    FaultTaken cause info s (raiseFault cause info s)
    ∧ FaultTaken cause info s (raiseFault cause info (takeIoReport s)) := by
  constructor <;> constructor <;> first | rfl | (intro a; rfl)

/-! ### The step, phase by phase -/

/-- In LOAD and in RUN, the next action is the live one. -/
theorem nextAction_live {s : State} (h : s.phase = .load ∨ s.phase = .run) : nextAction s = liveAction s := by
  rcases h with h | h <;> simp [nextAction, h]

/-- What a fetch in RUN gives: the decoded pair, or the end of the input (R108, R109). -/
theorem fetch_run {s : State} (h : s.phase = .run) :
    (∃ raw val rest, s.input.drop s.inPos = raw :: val :: rest ∧
      fetch s = .ok (decodePair (decodeCtx s) (pairOfBytes raw val))) ∨
    (s.input.length < s.inPos + 2 ∧ fetch s = .error .shortPair) := by
  rcases hd : s.input.drop s.inPos with _ | ⟨a, _ | ⟨b, r⟩⟩
  · have hl := congrArg List.length hd
    simp at hl
    exact .inr ⟨by omega, by simp [fetch, decode, decodeCtx, positionOf, h, hd]⟩
  · have hl := congrArg List.length hd
    simp at hl
    exact .inr ⟨by omega, by simp [fetch, decode, decodeCtx, positionOf, h, hd]⟩
  · exact .inl ⟨a, b, r, rfl, by simp [fetch, decode, decodeCtx, positionOf, h, hd]⟩

/-- What a fetch in LOAD gives: the header at offset 0, the codemap at offset 26 (R47, R78). -/
theorem fetch_load {s : State} (h : s.phase = .load) {i : Instr} (hf : fetch s = .ok i) :
    (s.inPos = 0 ∧ i = .loadHeader (s.input.take 26)) ∨
    (s.inPos = 26 ∧ i = .loadCodemap ((s.input.drop 26).take s.header.codemapLen.toNat)) := by
  simp only [fetch, decode, decodeCtx, positionOf, h] at hf
  by_cases h0 : s.inPos = 0
  · simp [h0, inRead, headerSize] at hf
    exact .inl ⟨h0, hf.symm⟩
  · by_cases h1 : s.inPos = 26
    · simp [h1, inRead, headerSize] at hf
      exact .inr ⟨h1, hf.symm⟩
    · simp [h0, h1, headerSize] at hf

/-- What LOAD.HEADER that answers a next state has done (R73). -/
theorem execLoadHeader_cases {h : List Byte} {s t : State} (he : execLoadHeader h s = .next t) :
    s.phase = .load ∧ s.inPos = 0 ∧
    ((h.length < headerSize ∧ t = raiseIoFailure s) ∨
     (headerSize ≤ h.length ∧ bytesAt h 0 magicSize ≠ magic ∧
       t = raiseFault .badSignature (.signature (bytesAt h 0 magicSize)) s) ∨
     (headerSize ≤ h.length ∧ bytesAt h 0 magicSize = magic ∧ t = latchHeader h s)) := by
  unfold execLoadHeader at he
  split at he
  · rename_i hr
    refine ⟨hr.1, hr.2, ?_⟩
    split at he
    · injection he with he
      exact .inl ⟨‹_›, he.symm⟩
    · rename_i hl
      split at he <;> injection he with he
      · exact .inr (.inl ⟨Nat.not_lt.1 hl, ‹_›, he.symm⟩)
      · exact .inr (.inr ⟨Nat.not_lt.1 hl, by simp_all, he.symm⟩)
  · cases he

/-- What LOAD.CODEMAP that answers a next state has done (R77, R79). -/
theorem execLoadCodemap_cases {c : List Byte} {s t : State} (he : execLoadCodemap c s = .next t) :
    s.phase = .load ∧ s.inPos = headerSize ∧
    ((c.length < s.header.codemapLen.toNat ∧ t = raiseIoFailure s) ∨
     (s.header.codemapLen.toNat ≤ c.length ∧
       t = enterRun (c.take s.header.codemapLen.toNat) (latchCodemap (c.take s.header.codemapLen.toNat) s))) := by
  unfold execLoadCodemap at he
  split at he
  · rename_i hr
    refine ⟨hr.1, hr.2, ?_⟩
    split at he <;> injection he with he
    · exact .inl ⟨‹_›, he.symm⟩
    · exact .inr ⟨Nat.not_lt.1 ‹_›, he.symm⟩
  · cases he

/-- What the operation decoded from a pair does (R62, R93, R110 to R117): a delay completes with the bank kept, a missing
entry and an unmapped level register fault, and everything else is APPLY's value stored and emitted. -/
theorem exec_decodedPair_cases (s : State) (p : Pair) :
    (notDelay (decodeCtx s) p = false ∧
      exec (decodePair (decodeCtx s) p) s = .next (completePair p p.value s)) ∨
    (notDelay (decodeCtx s) p = true ∧ realOf s p = none ∧
      exec (decodePair (decodeCtx s) p) s
        = .next (raiseFault .codemapIndexOutOfRange (.rawRegister s.pc (rawReg p)) s)) ∨
    (notDelay (decodeCtx s) p = true ∧ ∃ r, realOf s p = some r ∧
      ((isLevelRegister r = true ∧ algorithmRegisterFor s.params r = none ∧
        exec (decodePair (decodeCtx s) p) s
          = .next (raiseFault .unmappedLevelRegister (.realRegister s.pc r) s)) ∨
       (∃ out, applyValue s.params s.reduction s.bank r p.value = some out ∧
        exec (decodePair (decodeCtx s) p) s = .next (storeAndComplete p r out s)))) := by
  rcases decodePair_cases (decodeCtx s) p with ⟨h1, h'⟩ | ⟨h1, h2, h'⟩ | ⟨h1, h2, ⟨hn, h'⟩ | ⟨r, hr, h'⟩⟩
  · exact .inl ⟨by simp [notDelay, h1], by rw [h']; rfl⟩
  · exact .inl ⟨by simp [notDelay, h2], by rw [h']; rfl⟩
  · exact .inr (.inl ⟨by simp [notDelay, h1, h2], hn, by rw [h']; rfl⟩)
  refine .inr (.inr ⟨by simp [notDelay, h1, h2], r, hr, ?_⟩)
  have hr' : codemapEntry s.header.codemapLen s.codemap (maskedReg p) = some r := hr
  rcases h' with ⟨hl, h'⟩ | ⟨hl, ha, h'⟩ | ⟨a, hl, ha, ⟨hb, h'⟩ | ⟨hb, hc, h'⟩ | ⟨hb, hc, h'⟩⟩
  · refine .inr ⟨p.value, applyValue_nonLevel _ _ _ _ hl, ?_⟩
    rw [h']
    simp only [exec, execWr, withRealReg_some _ hr', applyLevelUnit, applyValue_nonLevel _ _ _ _ hl]
    rfl
  · refine .inl ⟨hl, ha, ?_⟩
    rw [h']
    simp only [exec, execLvlUnmapped, withRealReg_some _ hr']
  · have hb : algoBit s.bank a = true := hb
    refine .inr ⟨_, applyValue_mapped _ _ _ hl ha, ?_⟩
    rw [h']
    simp [exec, execLvlAdd, withRealReg_some _ hr', modifies, hb]
  · have hc : isCarrier s.params r = true := hc
    refine .inr ⟨_, applyValue_mapped _ _ _ hl ha, ?_⟩
    rw [h']
    simp [exec, execLvlFmCar, withRealReg_some _ hr', modifies, hc]
  · have hc : isCarrier s.params r = false := hc
    have hb : algoBit s.bank a = false := hb
    refine .inr ⟨_, applyValue_mapped _ _ _ hl ha, ?_⟩
    rw [h']
    simp [exec, execLvlFmMod, withRealReg_some _ hr', modifies, hc, hb]

/-- What a step in RUN does, in the order of R135. -/
theorem step_run_cases {s : State} (h : s.phase = .run) :
    (ioFailReported s = true ∧ step s = .next (raiseIoFailure (takeIoReport s))) ∨
    (ioFailReported s = false ∧ s.pc = s.header.pairCount ∧ step s = .next (endPass .count (takeIoReport s))) ∨
    (ioFailReported s = false ∧ s.pc ≠ s.header.pairCount ∧ s.input.length < s.inPos + 2 ∧
      step s = .next (endPass .truncated (takeIoReport s))) ∨
    (ioFailReported s = false ∧ s.pc ≠ s.header.pairCount ∧
      ∃ raw val rest, s.input.drop s.inPos = raw :: val :: rest ∧
        step s = exec (decodePair (decodeCtx (takeIoReport s)) (pairOfBytes raw val)) (takeIoReport s)) := by
  unfold step
  rw [nextAction_live (.inr h)]
  rcases liveAction_cases s with ⟨h1, h2⟩ | ⟨h1, h2, h3⟩ | ⟨h1, h2, h3⟩
  · exact .inl ⟨h1, by rw [h2]⟩
  · simp [countReached, h] at h2
    exact .inr (.inl ⟨h1, h2, by rw [h3]⟩)
  · simp [countReached, h] at h2
    rcases fetch_run (s := takeIoReport s) h with ⟨raw, val, rest, hd, hf⟩ | ⟨hl, hf⟩
    · exact .inr (.inr (.inr ⟨h1, h2, raw, val, rest, hd, by rw [h3, fetchAction, hf]⟩))
    · exact .inr (.inr (.inl ⟨h1, h2, hl, by rw [h3, fetchAction, hf]⟩))

end Sys2Proof.Machine
end

