-- ==== Sys2Proof/Laws/PerInstr.lean ====
section
/-!
SUPPORT. Statements for all instructions, one lemma for each constructor of `Instr`.
-/

namespace Sys2Proof.Laws.EncodedSize

open Machine

/-- How many input bytes the operation at a position takes: the header's 26, the codemap's `CODEMAP_LEN`, a pair's 2
(30_encoding.md R54, R69). -/
def sizeIn (c : DecodeCtx) : Nat :=
  match c.position with
  | .header => headerSize
  | .codemap => c.codemapLen.toNat
  | .pairs => 2
  | .nowhere => 0

/-- A well-formed operation's encoding is as long as its position says. -/
def Statement (i : Instr) : Prop := ∀ c : DecodeCtx, WellFormed c i = true → (encode i).length = sizeIn c

theorem loadHeader (h : List Byte) : Statement (.loadHeader h) := by
  intro c hw; simp_all [WellFormed, encode, sizeIn]

theorem loadCodemap (e : List Byte) : Statement (.loadCodemap e) := by
  intro c hw; simp_all [WellFormed, encode, sizeIn]

theorem dlyS (p : Pair) : Statement (.dlyS p) := by
  intro c hw; simp_all [WellFormed, encode, sizeIn, pairBytes]

theorem dlyL (p : Pair) : Statement (.dlyL p) := by
  intro c hw; simp_all [WellFormed, encode, sizeIn, pairBytes]

theorem xlatFault (p : Pair) : Statement (.xlatFault p) := by
  intro c hw; simp_all [WellFormed, encode, sizeIn, pairBytes]

theorem wr (p : Pair) : Statement (.wr p) := by
  intro c hw; simp_all [WellFormed, encode, sizeIn, pairBytes]

theorem lvlUnmapped (p : Pair) : Statement (.lvlUnmapped p) := by
  intro c hw; simp_all [WellFormed, encode, sizeIn, pairBytes]

theorem lvlAdd (p : Pair) : Statement (.lvlAdd p) := by
  intro c hw; simp_all [WellFormed, encode, sizeIn, pairBytes]

theorem lvlFmCar (p : Pair) : Statement (.lvlFmCar p) := by
  intro c hw; simp_all [WellFormed, encode, sizeIn, pairBytes]

theorem lvlFmMod (p : Pair) : Statement (.lvlFmMod p) := by
  intro c hw; simp_all [WellFormed, encode, sizeIn, pairBytes]

end Sys2Proof.Laws.EncodedSize
end

