-- ==== Sys2Proof/Tests/Slice0.lean ====
section
/-!
SUPPORT. The model's own tests, each on one step or one lookup, with expected results from spec/95_test_vectors.md or
the rule named; and the witnesses that the hypotheses of the statements can be met together.
-/

namespace Sys2Proof.Tests

open Sys2Proof Sys2Proof.Machine

/-- The next state, where there is one. -/
def nextOf : Host.Outcome State Fault Refusal → Option State
  | .next t => some t
  | .fault _ => none
  | .refused _ => none

/-- The next step from the table's image (log 16): codemap C0 40 41 44 46, channel 0 additive, R = 5, and the pair `w`,
register byte in the high half. -/
def due (w : Nat) : State := State.reset.withFetchWord 16 w

/-- What a step from `due w` shows: the pair emitted, one bank cell, and the fault code. -/
def shown (w : Nat) (cell : Byte) : Option (List Byte × Byte × Nat) :=
  (nextOf (step (due w))).map fun t => (t.out.drop 31, t.bank.read cell, t.fault.code)

/-! ### WellFormed: an ill-formed term for each check -/

theorem test_illFormed_header_short : WellFormed (tableCtx 208) (.loadHeader (List.replicate 25 0)) = false := by decide
theorem test_illFormed_header_place : WellFormed (tableCtx 16) (.loadHeader (List.replicate 26 0)) = false := by decide
theorem test_illFormed_codemap_size : WellFormed (tableCtx 24) (.loadCodemap [1, 2]) = false := by decide
theorem test_illFormed_codemap_place : WellFormed (tableCtx 16) (.loadCodemap [1, 2]) = false := by decide
theorem test_illFormed_dlyS : WellFormed (tableCtx 16) (.dlyS ⟨0, 0x7E, 0⟩) = false := by decide
theorem test_illFormed_dlyL_equal_codes :
    WellFormed { tableCtx 16 with shortDelay := 0x7E } (.dlyL ⟨0, 0x7E, 0⟩) = false := by decide
theorem test_illFormed_xlatFault : WellFormed (tableCtx 16) (.xlatFault ⟨0, 4, 0⟩) = false := by decide
theorem test_illFormed_wr_level : WellFormed (tableCtx 16) (.wr ⟨0, 1, 0⟩) = false := by decide
theorem test_illFormed_wr_delay :
    WellFormed { tableCtx 16 with longDelay := 0 } (.wr ⟨0, 0, 0⟩) = false := by decide
theorem test_illFormed_unmapped : WellFormed (tableCtx 16) (.lvlUnmapped ⟨0, 1, 0⟩) = false := by decide
theorem test_illFormed_add_fm : WellFormed (tableCtx 16) (.lvlAdd ⟨0, 2, 0⟩) = false := by decide
theorem test_illFormed_car_modulator : WellFormed (tableCtx 16) (.lvlFmCar ⟨0, 2, 0⟩) = false := by decide
theorem test_illFormed_car_additive : WellFormed (tableCtx 16) (.lvlFmCar ⟨0, 1, 0⟩) = false := by decide
theorem test_illFormed_mod_carrier : WellFormed (tableCtx 16) (.lvlFmMod ⟨0, 3, 0⟩) = false := by decide
theorem test_illFormed_pair_place : WellFormed (tableCtx 208) (.dlyS ⟨0, 0x7F, 0⟩) = false := by decide

/-! ### Decoding: words written out bit by bit, B IIIIIII VVVVVVVV (R58) -/

theorem test_decode_dlyS : decodeTableWord 16 0b1_1111111_00010010 = some (.dlyS ⟨1, 0x7F, 0x12⟩) := by decide
theorem test_decode_dlyL : decodeTableWord 16 0b0_1111110_11111111 = some (.dlyL ⟨0, 0x7E, 0xFF⟩) := by decide
theorem test_decode_xlatFault : decodeTableWord 16 0b0_0000101_00000000 = some (.xlatFault ⟨0, 5, 0⟩) := by decide
theorem test_decode_wr : decodeTableWord 16 0b0_0000000_00000001 = some (.wr ⟨0, 0, 1⟩) := by decide
theorem test_decode_lvlUnmapped : decodeTableWord 16 0b0_0000100_00010000 = some (.lvlUnmapped ⟨0, 4, 0x10⟩) := by decide
theorem test_decode_lvlAdd : decodeTableWord 16 0b0_0000001_00101010 = some (.lvlAdd ⟨0, 1, 0x2A⟩) := by decide
theorem test_decode_lvlFmCar : decodeTableWord 16 0b1_0000011_00100101 = some (.lvlFmCar ⟨1, 3, 0x25⟩) := by decide
theorem test_decode_lvlFmMod : decodeTableWord 16 0b0_0000010_00101010 = some (.lvlFmMod ⟨0, 2, 0x2A⟩) := by decide
theorem test_decode_loadCodemap : decodeTableWord 24 0x4340C0 = some (.loadCodemap [0xC0, 0x40, 0x43]) := by decide
theorem test_decode_loadHeader :
    decodeTableWord 208 0x4C504F5741524244
      = some (.loadHeader ([0x44, 0x42, 0x52, 0x41, 0x57, 0x4F, 0x50, 0x4C] ++ List.replicate 18 0)) := by decide
/-- R64: the same bits, another bank, another class. -/
theorem test_decode_depends_on_bank :
    decodePair { tableCtx 16 with bank := [(0xC0, 0xFE#8)] } ⟨0, 1, 0x2A⟩ = .lvlFmMod ⟨0, 1, 0x2A⟩ := by decide
/-- R65, 95_test_vectors.md 2.4: with SHORT_DELAY = 0x90, pair `10 00` is no delay. -/
theorem test_decode_delay_bit7 :
    decodePair { tableCtx 16 with shortDelay := 0x90 } (pairOfBytes 0x10 0x00) = .xlatFault ⟨0, 0x10, 0⟩ := by decide
theorem test_decode_nowhere : decode (tableCtx 12) [0, 0] = .error .nothingDue := by decide
theorem test_decode_shortPair : decode (tableCtx 16) [0x01] = .error .shortPair := by decide
/-- R73's example header. -/
theorem test_parseHeader :
    parseHeader [0x44, 0x42, 0x52, 0x41, 0x57, 0x4F, 0x50, 0x4C, 0x02, 0, 0, 0, 0x07, 0, 0, 0, 0x05, 0, 0, 0, 0, 0, 0,
        0x10, 0x11, 0x03]
      = { signature := magic, versionMajor := 2, versionMinor := 0, pairCount := 7, durationMs := 5, hwType := 0,
          format := 0, compression := 0, shortDelay := 0x10, longDelay := 0x11, codemapLen := 3 } := by decide
/-- R40: the second byte of a field is worth 256. -/
theorem test_leValue : leValue [0x34, 0x12] = 0x1234 ∧ leBytes 4 0x0A0B0C0D = [0x0D, 0x0C, 0x0B, 0x0A] := by decide

/-! ### Classifier (95_test_vectors.md 2.1) -/

theorem test_level_range :
    [0x3F, 0x40, 0x55, 0x56].map isLevelRegister = [false, true, true, false] := by decide
theorem test_algorithm_registers :
    [0x40, 0x43, 0x45, 0x46, 0x48, 0x4B, 0x4F, 0x52, 0x55].map (algorithmRegisterFor defaultParams)
      = [some 0xC0, some 0xC0, some 0xC2, none, some 0xC3, some 0xC3, none, some 0xC8, some 0xC8] := by decide
/-- R91, R87: a table is turned away for each of the four conditions. -/
theorem test_tables_turned_away :
    tablesValid defaultAlgoMap defaultCarriers = true
    ∧ tablesValid (defaultAlgoMap.drop 1) defaultCarriers = false
    ∧ tablesValid ((0x3F, 0xC0) :: defaultAlgoMap.drop 1) defaultCarriers = false
    ∧ tablesValid ((0x40, 0x46) :: defaultAlgoMap.drop 1) defaultCarriers = false
    ∧ tablesValid defaultAlgoMap (defaultCarriers.drop 1) = false
    ∧ tablesValid defaultAlgoMap (0x46 :: defaultCarriers.drop 1) = false
    ∧ tablesValid defaultAlgoMap (0x40 :: defaultCarriers.drop 1) = false := by decide
theorem test_carriers :
    [0x40, 0x43, 0x45, 0x46, 0x4B, 0x52, 0x55, 0xC0].map (isCarrier defaultParams)
      = [false, true, true, false, true, false, true, false] := by decide

/-! ### Level unit (95_test_vectors.md 2.2, 2.3) -/

theorem test_satsub :
    (satsub 5 37, satsub 5 0, satsub 5 4, satsub 0 63, satsub 62 63, satsub 63 63, satsub 1000 10)
      = (32, 0, 0, 63, 1, 0, 0) := by decide
theorem test_attenuate :
    [0x25, 0xC3, 0xFF, 0x80].map (attenuate defaultParams 5) = [0x20, 0xC0, 0xFA, 0x80] := by decide
theorem test_attenuate_originalZero : attenuate { defaultParams with atten := .originalZero } 5 0xBF = 0x80 := by decide
/-- R98: a function that returns 64 + 3 for a level of 1 keeps the low six bits, and the KSL bits stay. -/
theorem test_attenuate_mask :
    attenuate { defaultParams with atten := .table (Vector.ofFn fun i => i.val + 66) } 5 0x41 = 0x43 := by decide
theorem test_apply_modulator :
    (applyValue defaultParams 5 [] 0x40 0x2A, applyValue defaultParams 5 [(0xC0, 0x01)] 0x40 0x2A,
      applyValue defaultParams 5 [(0xC0, 0xFE)] 0x40 0x2A, applyValue defaultParams 5 [(0xC0, 0xFF)] 0x40 0x7F)
      = (some 0x2A, some 0x25, some 0x2A, some 0x7A) := by decide
theorem test_apply_edges :
    (applyValue defaultParams 63 [] 0x52 0x3F, applyValue defaultParams 5 [] 0x3F 0x3F,
      applyValue defaultParams 5 [] 0x56 0x3F, applyValue defaultParams 0 [] 0x4F 0x10)
      = (some 0x3F, some 0x3F, some 0x3F, none) := by decide

/-! ### One step of each class, from the table's image -/

theorem test_step_dlyS : shown 0xFF12 0xC0 = some ([0xFF, 0x12], 0x01, 0) := by decide
theorem test_step_dlyL : shown 0x7E12 0xC0 = some ([0x7E, 0x12], 0x01, 0) := by decide
theorem test_step_wr : shown 0x8000 0xC0 = some ([0x80, 0x00], 0x00, 0) := by decide
theorem test_step_lvlAdd : shown 0x012A 0x40 = some ([0x01, 0x25], 0x25, 0) := by decide
theorem test_step_lvlFmMod : shown 0x022A 0x41 = some ([0x02, 0x2A], 0x2A, 0) := by decide
theorem test_step_lvlFmCar : shown 0x83C3 0x44 = some ([0x83, 0xC0], 0xC0, 0) := by decide
theorem test_step_lvlUnmapped : shown 0x0410 0x46 = some ([], 0x00, 3) := by decide
theorem test_step_xlatFault : shown 0x0500 0x46 = some ([], 0x00, 2) := by decide
theorem test_step_fault_info :
    (nextOf (step (due 0x8500))).map (·.faultInfo) = some (.rawRegister 0 0x85)
    ∧ (nextOf (step (due 0x8410))).map (·.faultInfo) = some (.realRegister 0 0x46) := by decide
theorem test_step_counts : (nextOf (step (due 0x0001))).map (fun t => (t.pc, t.inPos)) = some (1, 33) := by decide
/-- 95_test_vectors.md 2.5: 18 bytes of header are a short header. -/
theorem test_step_shortHeader :
    (nextOf (step { State.reset with input := magic ++ List.replicate 10 0 })).map
      (fun t => (t.phase, t.fault.code, t.faultInfo, t.out)) = some (.fault, 4, .inputPosition 0, []) := by decide
/-- S2: `DBRAWOPX` is no signature. -/
theorem test_step_badSignature :
    (nextOf (step { State.reset with
        input := [0x44, 0x42, 0x52, 0x41, 0x57, 0x4F, 0x50, 0x58] ++ List.replicate 20 0 })).map
      (fun t => (t.fault.code, t.out)) = some (1, []) := by decide
theorem test_step_loadHeader :
    (nextOf (step { State.reset with input := encodeHeader tableHeader })).map
      (fun t => (t.phase, t.inPos, t.header)) = some (.load, 26, tableHeader) := by decide
theorem test_step_loadCodemap :
    (nextOf (step (State.reset.withFetchWord 24 0x4340C0))).map
      (fun t => (t.phase, t.codemap, t.inPos, t.out.drop 26)) = some (.run, [0xC0, 0x40, 0x43], 29, [0xC0, 0x40, 0x43])
    := by decide
theorem test_step_after_end :
    nextOf (step { due 0x0001 with phase := .done }) = none
    ∧ nextOf (step { due 0x0001 with phase := .fault }) = none := by decide
theorem test_exec_after_bank_zero : (due 0x0001).bank.write 0xC0 0 = [] := by decide

/-! ### Witnesses: the hypotheses of each statement, met together -/

/-- The invariant of a pass in RUN, with a pair due. -/
theorem inv_due (w : Nat) : Inv (due w) := by
  refine ⟨rfl, ?_, ?_, ?_, trivial, rfl⟩
  · exact ⟨fun _ h => (by cases h), fun _ => rfl⟩
  · exact ⟨fun _ h => (by cases h), fun _ => rfl⟩
  · refine ⟨⟨?_, rfl, ?_, rfl⟩, rfl, rfl, ?_, rfl, ?_, rfl, rfl⟩
    · show (26 : Nat) ≤ 33; decide
    · show tableHeader = parseHeader (encodeHeader tableHeader); decide
    · show (0 : Nat) ≤ 1; decide
    · show (31 : Nat) ≤ 33; decide

/-- The invariant of a pass in RUN with its count reached. -/
theorem inv_counted : Inv { due 0x0320 with pc := 1, inPos := 33, out := tableImage ++ [0x03, 0x1B] } := by
  refine ⟨rfl, ?_, ?_, ?_, trivial, rfl⟩
  · exact ⟨fun _ h => (by cases h), fun _ => rfl⟩
  · exact ⟨fun _ h => (by cases h), fun _ => rfl⟩
  · refine ⟨⟨by decide, rfl, by decide, rfl⟩, rfl, rfl, by decide, rfl, by decide, rfl, rfl⟩

theorem witness_StepKeepsThePassInvariant :
    (∃ t, Inv (due 0x0325) ∧ step (due 0x0325) = .next t) ∧ ∃ t, Inv (due 0x0410) ∧ step (due 0x0410) = .next t :=
  ⟨⟨_, inv_due _, rfl⟩, ⟨_, inv_due _, rfl⟩⟩

theorem witness_EndedPassTakesNoStep :
    { due 0 with phase := .done, endReason := .count }.phase = .done
    ∧ { due 0 with phase := .fault, fault := .ioFailure }.phase = .fault := ⟨rfl, rfl⟩

theorem witness_CountReachedEndsThePass :
    ∃ s : State, s.phase = .run ∧ ioFailReported s = false ∧ s.pc = s.header.pairCount :=
  ⟨{ due 0 with pc := 1 }, by decide⟩

/-- One byte left, and none left. -/
theorem witness_TruncatedInputEndsThePass :
    (∃ s : State, s.phase = .run ∧ ioFailReported s = false ∧ s.pc ≠ s.header.pairCount
      ∧ s.input.length < s.inPos + 2 ∧ s.input.length = s.inPos + 1)
    ∧ ∃ s : State, s.phase = .run ∧ ioFailReported s = false ∧ s.pc ≠ s.header.pairCount
      ∧ s.input.length < s.inPos + 2 ∧ s.input.length = s.inPos :=
  ⟨⟨{ due 0 with input := tableImage ++ [0x00] }, by decide⟩, ⟨{ due 0 with input := tableImage }, by decide⟩⟩

theorem witness_HostReportIsTakenFirst :
    (∃ s : State, s.phase = .load ∧ ioFailReported s = true) ∧ ∃ s : State, s.phase = .run ∧ ioFailReported s = true :=
  ⟨⟨{ State.reset with ioReports := [true] }, by decide⟩, ⟨{ due 0 with ioReports := [true] }, by decide⟩⟩

theorem witness_FaultEntryIsPrecise : ∃ t, step (due 0x0410) = .next t ∧ t.phase = .fault := ⟨_, rfl, rfl⟩

theorem witness_StepRunsTheDecodedInstruction :
    (∃ s : State, ∃ i, s.phase = .load ∧ ioFailReported s = false
      ∧ decode (decodeCtx s) (s.input.drop s.inPos) = .ok i)
    ∧ ∃ s : State, ∃ i, (s.phase = .run ∧ s.pc ≠ s.header.pairCount) ∧ ioFailReported s = false
      ∧ decode (decodeCtx s) (s.input.drop s.inPos) = .ok i :=
  ⟨⟨State.reset, _, rfl, rfl, rfl⟩, ⟨due 0x0325, .lvlFmCar ⟨0, 3, 0x25⟩, by decide⟩⟩

theorem witness_RunStepIsTheConsolidatedFunction :
    (due 0x0325).phase = .run ∧ (due 0x0325).codemap.length = (due 0x0325).header.codemapLen.toNat := by decide

theorem witness_ConfigurationIsConstant : ∃ t, step (due 0x0325) = .next t ∧ (due 0x0325).phase = .run :=
  ⟨_, rfl, rfl⟩

theorem witness_OutputIsAppendOnly :
    (∃ t, step (due 0x0325) = .next t ∧ (due 0x0325).phase = .run)
    ∧ ∃ t, step (State.reset.withFetchWord 24 0x4340C0) = .next t
        ∧ (State.reset.withFetchWord 24 0x4340C0).phase = .load :=
  ⟨⟨_, rfl, rfl⟩, ⟨_, rfl, rfl⟩⟩

/-- A pass that ends by the count with an input of exactly the counted size. -/
theorem witness_OutputSizeAtTheEnd :
    ∃ s t : State, Inv s ∧ step s = .next t ∧ t.phase = .done ∧ t.endReason = .count
      ∧ t.input.length = headerSize + t.header.codemapLen.toNat + 2 * t.header.pairCount.toNat :=
  ⟨_, _, inv_counted, rfl, rfl, rfl, rfl⟩

theorem witness_DecodeOfEncode :
    WellFormed (tableCtx 16) (.lvlAdd ⟨1, 1, 0x2A⟩) = true ∧ WellFormed (tableCtx 16) (.xlatFault ⟨0, 5, 0⟩) = true
    ∧ WellFormed (tableCtx 16) (.lvlFmCar ⟨0, 3, 0⟩) = true ∧ WellFormed (tableCtx 16) (.lvlFmMod ⟨0, 2, 0⟩) = true
    ∧ WellFormed (tableCtx 16) (.lvlUnmapped ⟨0, 4, 0⟩) = true ∧ WellFormed (tableCtx 16) (.wr ⟨0, 0, 0⟩) = true
    ∧ WellFormed (tableCtx 16) (.dlyS ⟨1, 0x7F, 0⟩) = true ∧ WellFormed (tableCtx 16) (.dlyL ⟨0, 0x7E, 0⟩) = true
    ∧ WellFormed (tableCtx 208) (.loadHeader (encodeHeader tableHeader)) = true
    ∧ WellFormed (tableCtx 24) (.loadCodemap [1, 2, 3]) = true := by decide

theorem witness_DecodedPairIsWellFormed :
    (tableCtx 16).position = .pairs ∧ (tableCtx 16).codemap.length = (tableCtx 16).codemapLen.toNat := by decide

theorem witness_ClassOfPairIsUnique :
    ∃ i j : Instr, (tableCtx 16).position = .pairs ∧ WellFormed (tableCtx 16) i = true
      ∧ WellFormed (tableCtx 16) j = true ∧ encode i = encode j :=
  ⟨.lvlAdd ⟨1, 1, 0x2A⟩, .lvlAdd (pairOfBytes 0x81 0x2A), by decide⟩

theorem witness_HeaderImageRoundTrip :
    tableHeader.signature.length = magicSize ∧ (encodeHeader tableHeader).length = headerSize := by decide

theorem witness_HeaderFieldsAreLittleEndian : (encodeHeader tableHeader).length = headerSize := by decide

/-- The last index with an entry, and the first without one. -/
theorem witness_PairOperands :
    tableCodemap.length = (5#8).toNat ∧ (0x84#8 &&& 0x7F#8) < 5#8 ∧ ¬ (0x85#8 &&& 0x7F#8) < 5#8 := by decide

/-- 0x80 is the lowest code that never matches; 0x7F still does. -/
theorem witness_DelayCodeAbove7FNeverMatches :
    0x80#8 ≤ { tableCtx 16 with shortDelay := 0x80 }.shortDelay
    ∧ 0x80#8 ≤ { tableCtx 16 with longDelay := 0x80 }.longDelay
    ∧ decodePair (tableCtx 16) ⟨1, 0x7F, 0⟩ = .dlyS ⟨1, 0x7F, 0⟩ := by decide

theorem witness_EqualDelayCodesDecodeShort :
    { tableCtx 16 with longDelay := 0x7F }.shortDelay = { tableCtx 16 with longDelay := 0x7F }.longDelay
    ∧ maskedReg ⟨1, 0x7F, 0⟩ = { tableCtx 16 with longDelay := 0x7F }.longDelay := by decide

theorem witness_SampleWordsDecode :
    ∃ c : DecodeCtx, c.position = .pairs ∧ c.shortDelay = 0x00#8 ∧ c.longDelay = 0x02#8 ∧ c.codemapLen = 2#8
      ∧ c.codemap = [0x00#8, 0x43#8] ∧ c.bank = [] ∧ c.params = defaultParams :=
  ⟨⟨.pairs, 0x00, 0x02, 2, [0x00, 0x43], [], defaultParams⟩, by decide⟩

theorem witness_LoadHeaderLatchesTheHeader :
    State.reset.phase = .load ∧ State.reset.inPos = 0 ∧ tableHeader.signature = magic := by decide

/-- Seven bytes (before the signature's end), and 25 (before the header's end). -/
theorem witness_ShortHeaderRaisesIoFailure :
    (∃ s : State, s.phase = .load ∧ s.inPos = 0 ∧ ioFailReported s = false ∧ s.input.length < 26
      ∧ s.endReason ≠ .truncated ∧ s.input.length = 7)
    ∧ ∃ s : State, s.phase = .load ∧ s.inPos = 0 ∧ ioFailReported s = false ∧ s.input.length < 26
      ∧ s.endReason ≠ .truncated ∧ s.input.length = 25 :=
  ⟨⟨{ State.reset with input := List.replicate 7 0 }, by decide⟩,
   ⟨{ State.reset with input := List.replicate 25 0 }, by decide⟩⟩

/-- The signature, and one that differs in its last byte only, on 26 bytes. -/
theorem witness_SignatureComparisonIsExact :
    (∃ s : State, s.phase = .load ∧ s.inPos = 0 ∧ ioFailReported s = false ∧ 26 ≤ s.input.length ∧ s.out = []
      ∧ s.input.take 8 = [0x44#8, 0x42#8, 0x52#8, 0x41#8, 0x57#8, 0x4F#8, 0x50#8, 0x4C#8])
    ∧ ∃ s : State, s.phase = .load ∧ s.inPos = 0 ∧ ioFailReported s = false ∧ 26 ≤ s.input.length ∧ s.out = []
      ∧ s.input.take 8 ≠ [0x44#8, 0x42#8, 0x52#8, 0x41#8, 0x57#8, 0x4F#8, 0x50#8, 0x4C#8] :=
  ⟨⟨{ State.reset with input := encodeHeader tableHeader }, by decide⟩,
   ⟨{ State.reset with input := [0x44, 0x42, 0x52, 0x41, 0x57, 0x4F, 0x50, 0x58] ++ List.replicate 18 0 }, by decide⟩⟩

/-- An empty codemap, and one of three entries. -/
theorem witness_LoadCodemapEntersRun :
    (∃ s : State, ∃ c : List Byte, s.phase = .load ∧ s.inPos = 26 ∧ c.length = s.header.codemapLen.toNat ∧ c = [])
    ∧ ∃ s : State, ∃ c : List Byte, s.phase = .load ∧ s.inPos = 26 ∧ c.length = s.header.codemapLen.toNat
      ∧ c = [0xC0, 0x40, 0x43] :=
  ⟨⟨{ State.reset with inPos := 26 }, [], by decide⟩,
   ⟨State.reset.withFetchWord 24 0x4340C0, [0xC0, 0x40, 0x43], by decide⟩⟩

/-- One entry short. -/
theorem witness_ShortCodemapRaisesIoFailure :
    ∃ s : State, s.phase = .load ∧ s.inPos = 26 ∧ ioFailReported s = false ∧ 26 ≤ s.input.length
      ∧ s.input.length < 26 + s.header.codemapLen.toNat ∧ s.input.length = 28 :=
  ⟨{ State.reset.withFetchWord 24 0x4340C0 with input := List.replicate 28 0 }, by decide⟩

/-- The registers next to the level range, 0x3F and 0x56. -/
theorem witness_PlainWriteStoresAndPassesThrough :
    (∃ s : State, ∃ p r, s.bank.wf = true ∧ realOf s p = some r ∧ ¬ (0x40#8 ≤ r ∧ r ≤ 0x55#8) ∧ r = 0x3F)
    ∧ ∃ s : State, ∃ p r, s.bank.wf = true ∧ realOf s p = some r ∧ ¬ (0x40#8 ≤ r ∧ r ≤ 0x55#8) ∧ r = 0x56 :=
  ⟨⟨{ due 0 with codemap := [0x3F] }, ⟨0, 0, 1⟩, 0x3F, by decide⟩,
   ⟨{ due 0 with codemap := [0x56] }, ⟨1, 0, 1⟩, 0x56, by decide⟩⟩

theorem witness_WriteOfLevelRegisterIsApply :
    (∃ s : State, ∃ p r, s.bank.wf = true ∧ realOf s p = some r ∧ isLevelRegister r = true
      ∧ algorithmRegisterFor s.params r = none)
    ∧ ∃ s : State, ∃ p r, s.bank.wf = true ∧ realOf s p = some r ∧ isLevelRegister r = true
      ∧ algorithmRegisterFor s.params r = some 0xC0 :=
  ⟨⟨due 0, ⟨0, 4, 1⟩, 0x46, by decide⟩, ⟨due 0, ⟨0, 1, 1⟩, 0x40, by decide⟩⟩

theorem witness_CarrierLevelIsAttenuated : (due 0).bank.wf = true ∧ realOf (due 0) ⟨0, 3, 0x25⟩ = some 0x44 := by decide
theorem witness_ModulatorLevelPassesThrough :
    (due 0).bank.wf = true ∧ realOf (due 0) ⟨0, 2, 0x25⟩ = some 0x41 := by decide
theorem witness_AdditiveLevelIsAttenuated : (due 0).bank.wf = true ∧ realOf (due 0) ⟨1, 1, 0x25⟩ = some 0x40 := by decide
theorem witness_MissingCodemapEntryFaults :
    (tableCtx 16).codemap.length = (tableCtx 16).codemapLen.toNat := by decide
theorem witness_UnmappedLevelRegisterFaults : realOf (due 0) ⟨0, 4, 0x10⟩ = some 0x46 := by decide

/-- The first index with no entry. -/
theorem witness_EveryCodemapReadChecksItsIndex :
    Instr.lvlAdd ⟨0, 5, 0⟩ ∈ [Instr.wr ⟨0, 5, 0⟩, .lvlUnmapped ⟨0, 5, 0⟩, .lvlAdd ⟨0, 5, 0⟩, .lvlFmCar ⟨0, 5, 0⟩,
      .lvlFmMod ⟨0, 5, 0⟩]
    ∧ (due 0).header.codemapLen ≤ maskedReg ⟨0, 5, 0⟩ ∧ realOf (due 0) ⟨0, 5, 0⟩ = none := by decide

theorem witness_NonLevelPathOfApply : isLevelRegister 0x3F = false ∧ (due 0).bank.wf = true := by decide

theorem witness_ModifyDecisionOfApply :
    isLevelRegister 0x46 = true ∧ algorithmRegisterFor defaultParams 0x46 = none
    ∧ isLevelRegister 0x40 = true ∧ algorithmRegisterFor defaultParams 0x40 = some 0xC0
    ∧ Memory.read [(0xC0, 0x01)] 0xC0 &&& 0x01#8 = 1#8
    ∧ Memory.read [(0xC0, 0xFE)] 0xC0 &&& 0x01#8 = 0#8 ∧ 0x40#8 ∉ defaultParams.carriers
    ∧ isLevelRegister 0x43 = true ∧ algorithmRegisterFor defaultParams 0x43 = some 0xC0
    ∧ 0x43#8 ∈ defaultParams.carriers := by decide

theorem witness_SaturatingSubtractCorners : (63#6 : Level).toNat ≤ 63 ∧ 63 ≤ 63 := by decide

theorem witness_LawsOfApplyUnderSatsub :
    defaultParams.atten = .satsub ∧ isLevelRegister 0x40 = true ∧ algorithmRegisterFor defaultParams 0x40 = some 0xC0
    ∧ modifies defaultParams [] 0xC0 0x40 = false ∧ isLevelRegister 0x3F = false := by decide

theorem witness_OriginalZeroVariant : { defaultParams with atten := .originalZero }.atten = .originalZero := by decide

/-- A write of the algorithm register through bank select 1 gates a level pair of bank select 0, either way. -/
theorem witness_AlgorithmWriteGatesTheNextLevelPair :
    ∃ t, (due 0).bank.wf = true ∧ realOf (due 0) ⟨1, 0, 0x00⟩ = some 0xC0 ∧ isLevelRegister 0xC0 = false
      ∧ realOf (due 0) ⟨0, 1, 0x2A⟩ = some 0x40 ∧ isLevelRegister 0x40 = true
      ∧ algorithmRegisterFor (due 0).params 0x40 = some 0xC0
      ∧ notDelay (decodeCtx (due 0)) ⟨0, 1, 0x2A⟩ = true ∧ exec (.wr ⟨1, 0, 0x00⟩) (due 0) = .next t :=
  ⟨_, by decide, by decide, by decide, by decide, by decide, by decide, by decide, rfl⟩

theorem witness_UnwrittenBankIsFmMode : { tableCtx 16 with bank := [] }.bank = State.reset.bank := by decide

theorem witness_BankSelectOnlyRoutes :
    (∃ t, exec (decodePair (tableCtx 16) ⟨0, 3, 0x25⟩) (due 0) = .next t ∧ t.phase ≠ .fault)
    ∧ ∃ t, exec (decodePair (tableCtx 16) ⟨0, 5, 0x25⟩) (due 0) = .next t ∧ t.phase = .fault :=
  ⟨⟨_, rfl, by decide⟩, ⟨_, rfl, by decide⟩⟩

theorem witness_AdvisoryFieldsAreNeverRead :
    (∃ t, ¬ ((due 0x0325).phase = .load ∧ (due 0x0325).inPos = 0) ∧ step (due 0x0325) = .next t)
    ∧ ∃ s t, s.phase = .load ∧ ¬ (s.phase = .load ∧ s.inPos = 0) ∧ step s = .next t :=
  ⟨⟨_, by decide, rfl⟩, ⟨State.reset.withFetchWord 24 0x4340C0, _, by decide, by decide, rfl⟩⟩

/-- Banks that differ in the level cell of the very channel whose level pair is due. -/
theorem witness_LevelCellsAreNeverObserved :
    ∃ t, (due 0x012A).bank.wf = true
      ∧ Memory.wf [(0x43, 0x11), (0xC0, 0x01)] = true
      ∧ AgreeOffLevels (due 0x012A).bank [(0x43, 0x11), (0xC0, 0x01)] ∧ step (due 0x012A) = .next t := by
  refine ⟨_, by decide, by decide, ?_, rfl⟩
  unfold AgreeOffLevels
  decide

theorem witness_RegisterBytesAndTopBitsAreKept :
    ∃ t, Inv (due 0x0325) ∧ step (due 0x0325) = .next t
      ∧ (∀ k, k < (due 0x0325).out.length →
          (due 0x0325).out.getD k 0 &&& 0xC0#8 = (due 0x0325).input.getD k 0 &&& 0xC0#8)
      ∧ ∀ k, k < (due 0x0325).pc.toNat →
          (due 0x0325).out.getD (firstPair (due 0x0325) + 2 * k) 0
            = (due 0x0325).input.getD (firstPair (due 0x0325) + 2 * k) 0 := by
  refine ⟨_, inv_due _, rfl, ?_, fun k hk => absurd hk (Nat.not_lt_zero k)⟩
  have h : ∀ k, k < 31 → (due 0x0325).out.getD k 0 &&& 0xC0#8 = (due 0x0325).input.getD k 0 &&& 0xC0#8 := by decide
  exact h

theorem witness_ZeroReductionIdentity :
    ∃ s t : State, Inv s ∧ s.params.atten = .satsub ∧ s.reduction = 0 ∧ step s = .next t
      ∧ s.out = s.input.take s.out.length := by
  refine ⟨{ due 0x0325 with reduction := 0 }, _, ?_, rfl, rfl, rfl, rfl⟩
  obtain ⟨a, b, c, d, e, f⟩ := inv_due 0x0325
  exact ⟨a, b, c, ⟨⟨d.header.complete, d.header.bytes, d.header.registers, d.header.signature⟩,
    d.codemap, d.codemapSize, d.count, d.inPos, d.inBounds, d.outSize, d.outHead⟩, e, f⟩

/-- A first pass with R = 5 on `01 2A`, a second with R = 10 on its `01 25`, and one pass with R = 15. -/
theorem witness_SecondPassComposes :
    ∃ s' : State, ∃ u w : State,
      (due 0x012A).params.atten = .satsub ∧ u.params = (due 0x012A).params
      ∧ w.params = (due 0x012A).params ∧ w.reduction = (due 0x012A).reduction + u.reduction
      ∧ u.header = (due 0x012A).header ∧ w.header = (due 0x012A).header ∧ u.codemap = (due 0x012A).codemap
      ∧ w.codemap = (due 0x012A).codemap ∧ (due 0x012A).bank.wf = true ∧ u.bank.wf = true ∧ w.bank.wf = true
      ∧ AgreeOffLevels (due 0x012A).bank u.bank ∧ AgreeOffLevels (due 0x012A).bank w.bank
      ∧ PairDue 0x01 0x2A (due 0x012A) ∧ PairDue 0x01 0x25 u ∧ PairDue 0x01 0x2A w
      ∧ step (due 0x012A) = .next s' ∧ s'.out = (due 0x012A).out ++ [0x01, 0x25] :=
  ⟨_, { due 0x0125 with reduction := 10 }, { due 0x012A with reduction := 15 }, rfl, rfl, rfl, rfl, rfl, rfl,
    rfl, rfl, rfl, rfl, rfl, fun _ _ => rfl, fun _ _ => rfl, ⟨rfl, rfl, by decide, [], rfl⟩,
    ⟨rfl, rfl, by decide, [], rfl⟩, ⟨rfl, rfl, by decide, [], rfl⟩, rfl, rfl⟩

end Sys2Proof.Tests
end

section
/-!
PROOFS. What a step in LOAD and a step in RUN can do, said once as two relations that hold exactly of the states the step
answers.
-/

namespace Sys2Proof.Machine

/-! ### The step in LOAD -/

/-- A report is taken first, whatever else is due (R130, R135). -/
theorem step_ioFailReported {s : State} (hp : s.phase = .load ∨ s.phase = .run) (hio : ioFailReported s = true) :
    step s = .next (raiseIoFailure (takeIoReport s)) := by
  simp [step, nextAction_live hp, liveAction, hio]

/-- In LOAD the count ends nothing: without a report the step is the fetch. -/
theorem nextAction_load {s : State} (hp : s.phase = .load) (hio : ioFailReported s = false) :
    nextAction s = fetchAction (takeIoReport s) := by
  simp [nextAction_live (.inl hp), liveAction, hio, countReached, hp]

/-- At offset 0 in LOAD the step is LOAD.HEADER (R47, R73). -/
theorem step_at_header {s : State} (hp : s.phase = .load) (hio : ioFailReported s = false) (h0 : s.inPos = 0) :
    step s = execLoadHeader (s.input.take headerSize) (takeIoReport s) := by
  simp [step, nextAction_load hp hio, fetchAction, fetch, decode, decodeCtx, positionOf, hp, h0, inRead, exec]

/-- At offset 26 in LOAD the step is LOAD.CODEMAP (R47, R78). -/
theorem step_at_codemap {s : State} (hp : s.phase = .load) (hio : ioFailReported s = false)
    (h26 : s.inPos = headerSize) :
    step s = execLoadCodemap (bytesAt s.input headerSize s.header.codemapLen.toNat) (takeIoReport s) := by
  simp [step, nextAction_load hp hio, fetchAction, fetch, decode, decodeCtx, positionOf, hp, h26, inRead, exec, bytesAt]

/-- Nothing is due anywhere else in LOAD (log 12). -/
theorem step_load_nowhere {s : State} (hp : s.phase = .load) (hio : ioFailReported s = false)
    (h0 : s.inPos ≠ 0) (h26 : s.inPos ≠ headerSize) : step s = .fault .requireUnmet := by
  simp [step, nextAction_load hp hio, fetchAction, fetch, decode, decodeCtx, positionOf, hp, h0, h26]

/-- The signature of a header is the input's first 8 bytes. -/
theorem bytesAt_take_headerSize (b : List Byte) : bytesAt (b.take headerSize) 0 magicSize = b.take magicSize := by
  rw [bytesAt, List.drop_zero, List.take_take]
  rfl

/-- What a step in LOAD leads to (R73 to R79, R130), in the order of R135. -/
inductive LoadStep (s : State) : State → Prop
  | reported : ioFailReported s = true → LoadStep s (raiseIoFailure (takeIoReport s))
  | shortHeader : ioFailReported s = false → s.inPos = 0 → s.input.length < headerSize →
      LoadStep s (raiseIoFailure (takeIoReport s))
  | badSignature : ioFailReported s = false → s.inPos = 0 → headerSize ≤ s.input.length →
      s.input.take magicSize ≠ magic →
      LoadStep s (raiseFault .badSignature (.signature (s.input.take magicSize)) (takeIoReport s))
  | headerLatched : ioFailReported s = false → s.inPos = 0 → headerSize ≤ s.input.length →
      s.input.take magicSize = magic → LoadStep s (latchHeader (s.input.take headerSize) (takeIoReport s))
  | shortCodemap : ioFailReported s = false → s.inPos = headerSize →
      (bytesAt s.input headerSize s.header.codemapLen.toNat).length < s.header.codemapLen.toNat →
      LoadStep s (raiseIoFailure (takeIoReport s))
  | runEntered (c : List Byte) : ioFailReported s = false → s.inPos = headerSize →
      c = bytesAt s.input headerSize s.header.codemapLen.toNat → c.length = s.header.codemapLen.toNat →
      LoadStep s (enterRun c (latchCodemap c (takeIoReport s)))

theorem LoadStep.of_step {s t : State} (hp : s.phase = .load) (h : step s = .next t) : LoadStep s t := by
  cases hio : ioFailReported s with
  | true =>
    rw [step_ioFailReported (.inl hp) hio] at h
    cases h
    exact .reported hio
  | false =>
    by_cases h0 : s.inPos = 0
    · rw [step_at_header hp hio h0] at h
      obtain ⟨-, -, hc⟩ := execLoadHeader_cases h
      simp only [bytesAt_take_headerSize, List.length_take] at hc
      obtain ⟨hl, rfl⟩ | ⟨hl, hm, rfl⟩ | ⟨hl, hm, rfl⟩ := hc
      · exact .shortHeader hio h0 (by omega)
      · exact .badSignature hio h0 (by omega) hm
      · exact .headerLatched hio h0 (by omega) hm
    by_cases h26 : s.inPos = headerSize
    · rw [step_at_codemap hp hio h26] at h
      obtain ⟨-, -, ⟨hl, rfl⟩ | ⟨hl, rfl⟩⟩ := execLoadCodemap_cases h
      · exact .shortCodemap hio h26 hl
      · simp only [takeIoReport_header] at hl ⊢
        have hle : (bytesAt s.input headerSize s.header.codemapLen.toNat).length ≤ s.header.codemapLen.toNat :=
          List.length_take_le ..
        rw [List.take_of_length_le hle]
        exact .runEntered _ hio h26 rfl (Nat.le_antisymm hle hl)
    · rw [step_load_nowhere hp hio h0 h26] at h
      cases h

theorem LoadStep.step_eq {s t : State} (hp : s.phase = .load) (h : LoadStep s t) : step s = .next t := by
  cases h with
  | reported hio => exact step_ioFailReported (.inl hp) hio
  | shortHeader hio h0 hl =>
    rw [step_at_header hp hio h0]
    simp [execLoadHeader, hp, h0, hl]
  | badSignature hio h0 hl hm =>
    rw [step_at_header hp hio h0]
    simp [execLoadHeader, bytesAt_take_headerSize, hp, h0, hm, Nat.not_lt.2 hl]
  | headerLatched hio h0 hl hm =>
    rw [step_at_header hp hio h0]
    simp [execLoadHeader, bytesAt_take_headerSize, hp, h0, hm, Nat.not_lt.2 hl]
  | shortCodemap hio h26 hl =>
    rw [step_at_codemap hp hio h26]
    simp [execLoadCodemap, hp, h26, hl]
  | runEntered c hio h26 hc hl =>
    rw [step_at_codemap hp hio h26, ← hc]
    simp [execLoadCodemap, hp, h26, ← hl]

/-! ### The step in RUN -/

theorem PairDue.inBounds {raw val : Byte} {s : State} (h : PairDue raw val s) : s.inPos + 2 ≤ s.input.length := by
  obtain ⟨rest, hd⟩ := h.bytes
  have hl := congrArg List.length hd
  simp at hl
  omega

/-- Where a pair is due, the step executes it (R106, R109). -/
theorem PairDue.step_eq {raw val : Byte} {s : State} (h : PairDue raw val s) :
    step s = exec (decodePair (decodeCtx (takeIoReport s)) (pairOfBytes raw val)) (takeIoReport s) := by
  obtain ⟨rest, hd⟩ := h.bytes
  rcases step_run_cases h.phase with ⟨hio, -⟩ | ⟨-, hc, -⟩ | ⟨-, -, hl, -⟩ | ⟨-, -, raw', val', rest', hd', hs⟩
  · simp [h.noIo] at hio
  · exact absurd hc h.count
  · exact absurd h.inBounds (by omega)
  · rw [hd] at hd'
    cases hd'
    exact hs

/-- A delay pair completes as it stands (R110, R111). -/
theorem exec_decodedPair_delay {s : State} {p : Pair} (hd : notDelay (decodeCtx s) p = false) :
    exec (decodePair (decodeCtx s) p) s = .next (completePair p p.value s) := by
  rcases exec_decodedPair_cases s p with ⟨-, h⟩ | ⟨hn, -⟩ | ⟨hn, -⟩
  · exact h
  all_goals simp [hd] at hn

/-- A compact index with no entry faults (R116). -/
theorem exec_decodedPair_noEntry {s : State} {p : Pair} (hd : notDelay (decodeCtx s) p = true)
    (hr : realOf s p = none) :
    exec (decodePair (decodeCtx s) p) s
      = .next (raiseFault .codemapIndexOutOfRange (.rawRegister s.pc (rawReg p)) s) := by
  rcases exec_decodedPair_cases s p with ⟨hn, -⟩ | ⟨-, -, h⟩ | ⟨-, r, hr', -⟩
  · simp [hd] at hn
  · exact h
  · simp [hr] at hr'

/-- A level register with no algorithm register faults (R117). -/
theorem exec_decodedPair_unmapped {s : State} {p : Pair} {r : Byte} (hd : notDelay (decodeCtx s) p = true)
    (hr : realOf s p = some r) (hl : isLevelRegister r = true) (ha : algorithmRegisterFor s.params r = none) :
    exec (decodePair (decodeCtx s) p) s = .next (raiseFault .unmappedLevelRegister (.realRegister s.pc r) s) := by
  rcases exec_decodedPair_cases s p with ⟨hn, -⟩ | ⟨-, hr', -⟩ | ⟨-, r', hr', h⟩
  · simp [hd] at hn
  · simp [hr] at hr'
  · cases hr.symm.trans hr'
    rcases h with ⟨-, -, h⟩ | ⟨out, hv, -⟩
    · exact h
    · simp [applyValue_unmapped _ _ _ hl ha] at hv

/-- Every other pair stores and emits APPLY's value (R93, R112 to R115). -/
theorem exec_decodedPair_stored {s : State} {p : Pair} {r out : Byte} (hd : notDelay (decodeCtx s) p = true)
    (hr : realOf s p = some r) (hv : applyValue s.params s.reduction s.bank r p.value = some out) :
    exec (decodePair (decodeCtx s) p) s = .next (storeAndComplete p r out s) := by
  rcases exec_decodedPair_cases s p with ⟨hn, -⟩ | ⟨-, hr', -⟩ | ⟨-, r', hr', h⟩
  · simp [hd] at hn
  · simp [hr] at hr'
  · cases hr.symm.trans hr'
    rcases h with ⟨hl, ha, -⟩ | ⟨out', hv', h⟩
    · simp [applyValue_unmapped _ _ _ hl ha] at hv
    · cases hv.symm.trans hv'
      exact h

/-- What a step in RUN leads to (R106 to R118, R130), in the order of R135. -/
inductive RunStep (s : State) : State → Prop
  | reported : ioFailReported s = true → RunStep s (raiseIoFailure (takeIoReport s))
  | counted : ioFailReported s = false → s.pc = s.header.pairCount →
      RunStep s (endPass .count (takeIoReport s))
  | truncated : ioFailReported s = false → s.pc ≠ s.header.pairCount → s.input.length < s.inPos + 2 →
      RunStep s (endPass .truncated (takeIoReport s))
  | delay (raw val : Byte) : PairDue raw val s → notDelay (decodeCtx s) (pairOfBytes raw val) = false →
      RunStep s (completePair (pairOfBytes raw val) val (takeIoReport s))
  | noEntry (raw val : Byte) : PairDue raw val s → notDelay (decodeCtx s) (pairOfBytes raw val) = true →
      realOf s (pairOfBytes raw val) = none →
      RunStep s (raiseFault .codemapIndexOutOfRange (.rawRegister s.pc (rawReg (pairOfBytes raw val)))
        (takeIoReport s))
  | unmapped (raw val r : Byte) : PairDue raw val s → notDelay (decodeCtx s) (pairOfBytes raw val) = true →
      realOf s (pairOfBytes raw val) = some r → isLevelRegister r = true →
      algorithmRegisterFor s.params r = none →
      RunStep s (raiseFault .unmappedLevelRegister (.realRegister s.pc r) (takeIoReport s))
  | stored (raw val r out : Byte) : PairDue raw val s → notDelay (decodeCtx s) (pairOfBytes raw val) = true →
      realOf s (pairOfBytes raw val) = some r → applyValue s.params s.reduction s.bank r val = some out →
      RunStep s (storeAndComplete (pairOfBytes raw val) r out (takeIoReport s))

theorem RunStep.of_step {s t : State} (hp : s.phase = .run) (h : step s = .next t) : RunStep s t := by
  rcases step_run_cases hp with ⟨hio, hs⟩ | ⟨hio, hc, hs⟩ | ⟨hio, hc, hl, hs⟩ | ⟨hio, hc, raw, val, rest, hd, hs⟩
  · cases hs.symm.trans h
    exact .reported hio
  · cases hs.symm.trans h
    exact .counted hio hc
  · cases hs.symm.trans h
    exact .truncated hio hc hl
  have due : PairDue raw val s := ⟨hp, hio, hc, rest, hd⟩
  have he := hs.symm.trans h
  rcases exec_decodedPair_cases (takeIoReport s) (pairOfBytes raw val) with
    ⟨hn, hx⟩ | ⟨hn, hr, hx⟩ | ⟨hn, r, hr, ⟨hl, ha, hx⟩ | ⟨out, hv, hx⟩⟩ <;> cases hx.symm.trans he
  · exact .delay raw val due hn
  · exact .noEntry raw val due hn hr
  · exact .unmapped raw val r due hn hr hl ha
  · exact .stored raw val r out due hn hr hv

theorem RunStep.step_eq {s t : State} (hp : s.phase = .run) (h : RunStep s t) : step s = .next t := by
  cases h with
  | reported hio => exact step_ioFailReported (.inr hp) hio
  | counted hio hc => simp [step, nextAction_live (.inr hp), liveAction, countReached, hio, hp, hc]
  | truncated hio hc hl =>
    rcases step_run_cases hp with ⟨hio', -⟩ | ⟨-, hc', -⟩ | ⟨-, -, -, hs⟩ | ⟨-, -, raw, val, rest, hd, -⟩
    · simp [hio] at hio'
    · exact absurd hc' hc
    · exact hs
    · exact absurd (PairDue.inBounds ⟨hp, hio, hc, rest, hd⟩) (by omega)
  | delay raw val due hn => exact due.step_eq.trans (exec_decodedPair_delay hn)
  | noEntry raw val due hn hr => exact due.step_eq.trans (exec_decodedPair_noEntry hn hr)
  | unmapped raw val r due hn hr hl ha => exact due.step_eq.trans (exec_decodedPair_unmapped hn hr hl ha)
  | stored raw val r out due hn hr hv => exact due.step_eq.trans (exec_decodedPair_stored hn hr hv)

/-- Only LOAD and RUN take steps, each its own. -/
theorem step_next_iff {s t : State} :
    step s = .next t ↔ (s.phase = .load ∧ LoadStep s t) ∨ (s.phase = .run ∧ RunStep s t) := by
  constructor
  · intro h
    rcases (step_cases h).1 with hp | hp
    · exact .inl ⟨hp, .of_step hp h⟩
    · exact .inr ⟨hp, .of_step hp h⟩
  · rintro (⟨hp, h⟩ | ⟨hp, h⟩)
    · exact h.step_eq hp
    · exact h.step_eq hp

end Sys2Proof.Machine
end

section
/-!
PROOFS. The statements of 10_state.md, each by cases over LoadStep and RunStep: the invariant of a pass, level cells never
observed, the constant configuration, the append-only output, reset and the ends of a pass.
-/

namespace Sys2Proof.Machine

/-! ### The invariant of a pass -/

/-- `t` has the place in the input, the output, the configuration and the bank of `s`: only the status, the host's
reports and the arguments may differ. -/
structure SamePlace (s t : State) : Prop where
  pc       : t.pc = s.pc
  inPos    : t.inPos = s.inPos
  out      : t.out = s.out
  bank     : t.bank = s.bank
  header   : t.header = s.header
  hdrBytes : t.hdrBytes = s.hdrBytes
  codemap  : t.codemap = s.codemap
  input    : t.input = s.input

theorem samePlace_takeIoReport (s : State) : SamePlace s (takeIoReport s) := by constructor <;> rfl

theorem samePlace_raiseFault (cause : FaultCause) (info : FaultInfo) (s : State) :
    SamePlace s (raiseFault cause info (takeIoReport s)) := by constructor <;> rfl

theorem samePlace_endPass (why : EndReason) (s : State) : SamePlace s (endPass why (takeIoReport s)) := by
  constructor <;> rfl

theorem HeaderLatched.congr {s t : State} (h : HeaderLatched s) (hi : t.input = s.input)
    (hb : t.hdrBytes = s.hdrBytes) (hh : t.header = s.header) : HeaderLatched t := by
  obtain ⟨complete, bytes, registers, signature⟩ := h
  constructor <;> simpa only [hi, hb, hh]

theorem InLoad.samePlace {s t : State} (h : InLoad s) (e : SamePlace s t) : InLoad t where
  pc := e.pc.trans h.pc
  out := e.out.trans h.out
  bank := e.bank.trans h.bank
  place := by
    rw [e.inPos]
    exact h.place.imp_right fun ⟨h26, hl⟩ => ⟨h26, hl.congr e.input e.hdrBytes e.header⟩

theorem InPairs.samePlace {s t : State} (h : InPairs s) (e : SamePlace s t) : InPairs t := by
  obtain ⟨header, codemap, codemapSize, count, inPos, inBounds, outSize, outHead⟩ := h
  refine ⟨header.congr e.input e.hdrBytes e.header, ?_, ?_, ?_, ?_, ?_, ?_, ?_⟩ <;>
    simpa only [firstPair, e.pc, e.inPos, e.out, e.header, e.codemap, e.input]

/-- LOAD.HEADER's success leaves the header latched (R73). -/
theorem headerLatched_latchHeader {s : State} (hl : headerSize ≤ s.input.length)
    (hm : s.input.take magicSize = magic) : HeaderLatched (latchHeader (s.input.take headerSize) s) where
  complete := hl
  bytes := rfl
  registers := rfl
  signature := (bytesAt_take_headerSize s.input).trans hm

/-- The entry to RUN: the input's header and codemap are the whole output, and no pair is consumed (R79, R82). -/
theorem inPairs_enterRun {s : State} {c : List Byte} (h : InLoad s) (h26 : s.inPos = headerSize)
    (hc : c = bytesAt s.input headerSize s.header.codemapLen.toNat) (hl : c.length = s.header.codemapLen.toNat) :
    InPairs (enterRun c (latchCodemap c s)) := by
  have latched : HeaderLatched s := h.place.elim (fun h0 => by simp [h26] at h0) And.right
  have hout : s.out ++ s.hdrBytes ++ c = s.input.take (firstPair s) := by
    rw [h.out, List.nil_append, latched.bytes, hc, firstPair, List.take_add, bytesAt]
  have hfit : firstPair s ≤ s.input.length := by
    have := congrArg List.length hc
    simp [bytesAt] at this
    have := latched.complete
    simp only [firstPair]
    omega
  exact
    { header := latched.congr rfl rfl rfl
      codemap := hc
      codemapSize := hl
      count := Nat.zero_le _
      inPos := rfl
      inBounds := hfit
      outSize := by
        change (s.out ++ s.hdrBytes ++ c).length = firstPair s
        rw [hout, List.length_take, Nat.min_eq_left hfit]
      outHead := by
        change (s.out ++ s.hdrBytes ++ c).take (firstPair s) = s.input.take (firstPair s)
        rw [hout, List.take_take, Nat.min_self] }

/-- A completed pair moves `pc`, `in_pos` and `OUT` on together (R19, R27, R118). -/
theorem InPairs.pairCompleted {s t : State} {p : Pair} {out : Byte} (h : InPairs s)
    (hc : s.pc ≠ s.header.pairCount) (hb : s.inPos + 2 ≤ s.input.length) (e : PairCompleted p out s t) :
    InPairs t := by
  have hpc : (s.pc + 1).toNat = s.pc.toNat + 1 ∧ s.pc.toNat + 1 ≤ s.header.pairCount.toNat := by
    have := h.count
    bv_omega
  have hfirst : firstPair t = firstPair s := by rw [firstPair, e.frame.header, firstPair]
  exact
    { header := h.header.congr e.frame.input e.frame.hdrBytes e.frame.header
      codemap := by rw [e.frame.codemap, e.frame.input, e.frame.header]; exact h.codemap
      codemapSize := by rw [e.frame.codemap, e.frame.header]; exact h.codemapSize
      count := by rw [e.pc, e.frame.header, hpc.1]; exact hpc.2
      inPos := by
        have := h.inPos
        rw [e.inPos, e.pc, hpc.1, hfirst]
        omega
      inBounds := by rw [e.inPos, e.frame.input]; exact hb
      outSize := by rw [e.out, e.inPos, List.length_append, h.outSize]; rfl
      outHead := by
        have hle : firstPair s ≤ s.out.length := by
          have := h.inPos
          have := h.outSize
          omega
        rw [hfirst, e.out, e.frame.input, List.take_append_of_le_length hle]
        exact h.outHead }

/-! ### The latches -/

/-- Before the pass has ended no latch is set (R20, R21). -/
structure NoLatch (s : State) : Prop where
  endReason : s.endReason = .none
  fault     : s.fault = .none
  faultInfo : s.faultInfo = .empty

theorem Inv.noLatch {s : State} (h : Inv s) (hp : s.phase = .load ∨ s.phase = .run) : NoLatch s := by
  have hf : s.fault = .none := h.faultLatch.2 (by rcases hp with hp | hp <;> simp [hp])
  have he : s.endReason = .none := h.endLatch.2 (by rcases hp with hp | hp <;> simp [hp])
  exact ⟨he, hf, by simpa [FaultExplained, hf] using h.fault⟩

theorem Inv.inLoad {s : State} (h : Inv s) (hp : s.phase = .load) : InLoad s := by
  simpa [PhaseExplained, hp] using h.phase

theorem Inv.inPairs {s : State} (h : Inv s) (hp : s.phase = .run) : InPairs s := by
  simpa [PhaseExplained, hp] using h.phase

/-- The invariant of a pass that has not ended: no latch, and the place the phase says. -/
theorem inv_of_live {t : State} (hp : t.phase = .load ∨ t.phase = .run) (hb : t.bank.wf = true) (hn : NoLatch t)
    (hl : PhaseExplained t) : Inv t where
  bankWf := hb
  endLatch := by rcases hp with hp | hp <;> simp [hn.endReason, hp]
  faultLatch := by rcases hp with hp | hp <;> simp [hn.fault, hp]
  phase := hl
  ending := by simp [EndExplained, hn.endReason]
  fault := by simp [FaultExplained, hn.fault, hn.faultInfo]

/-- The invariant at a normal end (R107, R108). -/
theorem inv_endPass {s : State} {why : EndReason} (hb : s.bank.wf = true) (hn : NoLatch s) (hl : InPairs s)
    (hw : why ≠ .none) (he : EndExplained (endPass why (takeIoReport s))) :
    Inv (endPass why (takeIoReport s)) where
  bankWf := hb
  endLatch := by simp [hw]
  faultLatch := by simp [hn.fault]
  phase := hl.samePlace (samePlace_endPass why s)
  ending := he
  fault := by simp [FaultExplained, hn.fault, hn.faultInfo]

/-- The invariant at a fault (R126, R132). -/
theorem inv_raiseFault {s : State} {cause : FaultCause} {info : FaultInfo} (hb : s.bank.wf = true) (hn : NoLatch s)
    (hc : cause ≠ .none) (he : FaultExplained (raiseFault cause info (takeIoReport s))) :
    Inv (raiseFault cause info (takeIoReport s)) where
  bankWf := hb
  endLatch := by simp [hn.endReason]
  faultLatch := by simp [hc]
  phase := trivial
  ending := by simp [EndExplained, hn.endReason]
  fault := he

/-- IOFailure is explained wherever it is taken (R130). -/
theorem inv_raiseIoFailure {s : State} (hb : s.bank.wf = true) (hn : NoLatch s) (hl : InLoad s ∨ InPairs s) :
    Inv (raiseIoFailure (takeIoReport s)) :=
  inv_raiseFault hb hn (by simp)
    ⟨hl.imp (·.samePlace (samePlace_raiseFault ..)) (·.samePlace (samePlace_raiseFault ..)), rfl⟩

/-- The invariant after a completed pair, whatever it stored. -/
theorem inv_pairCompleted {s t : State} {p : Pair} {out : Byte} (h : Inv s) (hp : s.phase = .run)
    (hc : s.pc ≠ s.header.pairCount) (hb : s.inPos + 2 ≤ s.input.length)
    (e : PairCompleted p out (takeIoReport s) t) (hbank : t.bank.wf = true) : Inv t :=
  have hn := h.noLatch (.inr hp)
  have ht : t.phase = .run := e.frame.phase.trans hp
  have hl : InPairs t := ((h.inPairs hp).samePlace (samePlace_takeIoReport s)).pairCompleted hc hb e
  inv_of_live (.inr ht) hbank
    ⟨e.frame.endReason.trans hn.endReason, e.frame.fault.trans hn.fault, e.frame.faultInfo.trans hn.faultInfo⟩
    (by simpa [PhaseExplained, ht])

theorem LoadStep.inv {s t : State} (hp : s.phase = .load) (h : Inv s) (hs : LoadStep s t) : Inv t := by
  have hl := h.inLoad hp
  have hn := h.noLatch (.inl hp)
  cases hs with
  | reported => exact inv_raiseIoFailure h.bankWf hn (.inl hl)
  | shortHeader => exact inv_raiseIoFailure h.bankWf hn (.inl hl)
  | badSignature _ _ _ hm =>
    exact inv_raiseFault h.bankWf hn (by simp) ⟨hl.samePlace (samePlace_raiseFault ..), rfl, hm⟩
  | headerLatched _ _ hlen hm =>
    have place : InLoad (latchHeader (s.input.take headerSize) (takeIoReport s)) :=
      ⟨hl.pc, hl.out, hl.bank, .inr ⟨rfl, headerLatched_latchHeader hlen hm⟩⟩
    exact inv_of_live (.inl hp) h.bankWf ⟨hn.endReason, hn.fault, hn.faultInfo⟩ (by simpa [PhaseExplained, hp])
  | shortCodemap => exact inv_raiseIoFailure h.bankWf hn (.inl hl)
  | runEntered c _ h26 hc hlen =>
    exact inv_of_live (.inr rfl) h.bankWf ⟨hn.endReason, hn.fault, hn.faultInfo⟩
      (inPairs_enterRun (hl.samePlace (samePlace_takeIoReport s)) h26 hc hlen)

theorem RunStep.inv {s t : State} (hp : s.phase = .run) (h : Inv s) (hs : RunStep s t) : Inv t := by
  have hl := h.inPairs hp
  have hn := h.noLatch (.inr hp)
  cases hs with
  | reported => exact inv_raiseIoFailure h.bankWf hn (.inr hl)
  | counted _ hc => exact inv_endPass h.bankWf hn hl (by simp) hc
  | truncated _ hc hlen => exact inv_endPass h.bankWf hn hl (by simp) ⟨hc, hlen⟩
  | delay raw val due =>
    exact inv_pairCompleted h hp due.count due.inBounds (completePair_completed _ _ (takeIoReport s) s.bank) h.bankWf
  | noEntry raw val _ _ hr =>
    exact inv_raiseFault h.bankWf hn (by simp)
      ⟨hl.samePlace (samePlace_raiseFault ..), _, rfl, (codemapEntry_eq_none hl.codemapSize).1 hr⟩
  | unmapped raw val r _ _ _ hlev ha =>
    exact inv_raiseFault h.bankWf hn (by simp) ⟨hl.samePlace (samePlace_raiseFault ..), r, rfl, hlev, ha⟩
  | stored raw val r out due =>
    exact inv_pairCompleted h hp due.count due.inBounds
      (completePair_completed _ _ (takeIoReport s) (s.bank.write r out)) (Memory.write_wf r out h.bankWf)

/-- Settles O3: the step is a LOAD step or a RUN step, and each keeps the invariant. -/
theorem stepKeepsThePassInvariant : Obligations.StepKeepsThePassInvariant := by
  intro s t h hstep
  rcases step_next_iff.1 hstep with ⟨hp, hs⟩ | ⟨hp, hs⟩
  · exact hs.inv hp h
  · exact hs.inv hp h

/-! ### Level cells are never observed -/

theorem AgreeOffLevels.algoBit_eq {b c : Memory} {a : Byte} (h : AgreeOffLevels b c)
    (ha : isLevelRegister a = false) : algoBit b a = algoBit c a := by
  rw [algoBit, algoBit, h a ha]

/-- APPLY reads the bank at algorithm registers only, and none of them is a level register (R87, R95). -/
theorem AgreeOffLevels.applyValue_eq {b c : Memory} (h : AgreeOffLevels b c) (P : Params) (R : Nat) (r v : Byte) :
    applyValue P R b r v = applyValue P R c r v := by
  cases hl : isLevelRegister r with
  | false => rw [applyValue_nonLevel P R b v hl, applyValue_nonLevel P R c v hl]
  | true =>
    cases ha : algorithmRegisterFor P r with
    | none => rw [applyValue_unmapped R b v hl ha, applyValue_unmapped R c v hl ha]
    | some a =>
      rw [applyValue_mapped R b v hl ha, applyValue_mapped R c v hl ha, modifies, modifies,
        h.algoBit_eq (algorithmRegisterFor_notLevel ha)]

/-- The same store keeps the agreement. -/
theorem AgreeOffLevels.write {b c : Memory} (h : AgreeOffLevels b c) (hb : b.wf = true) (hc : c.wf = true)
    (r v : Byte) : AgreeOffLevels (b.write r v) (c.write r v) := by
  intro a ha
  rw [Memory.read_write hb, Memory.read_write hc, h a ha]

/-- LOAD does not read or write the bank. -/
theorem LoadStep.otherBank {s t : State} (h : LoadStep s t) (bank : Memory) :
    t.bank = s.bank ∧ LoadStep { s with bank := bank } { t with bank := bank } := by
  cases h with
  | reported hio => exact ⟨rfl, .reported hio⟩
  | shortHeader hio h0 hl => exact ⟨rfl, .shortHeader hio h0 hl⟩
  | badSignature hio h0 hl hm => exact ⟨rfl, .badSignature hio h0 hl hm⟩
  | headerLatched hio h0 hl hm => exact ⟨rfl, .headerLatched hio h0 hl hm⟩
  | shortCodemap hio h26 hl => exact ⟨rfl, .shortCodemap hio h26 hl⟩
  | runEntered c hio h26 hc hl => exact ⟨rfl, .runEntered c hio h26 hc hl⟩

/-- A due pair is due whatever the bank holds. -/
theorem PairDue.otherBank {raw val : Byte} {s : State} (h : PairDue raw val s) (bank : Memory) :
    PairDue raw val { s with bank := bank } :=
  ⟨h.phase, h.noIo, h.count, h.bytes⟩

/-- RUN reads the bank through APPLY alone and writes it by a store alone. -/
theorem RunStep.otherBank {s t : State} (h : RunStep s t) {bank : Memory} (hs : s.bank.wf = true)
    (hb : bank.wf = true) (ha : AgreeOffLevels s.bank bank) :
    ∃ bank', RunStep { s with bank := bank } { t with bank := bank' } ∧ AgreeOffLevels t.bank bank'
      ∧ bank'.wf = true := by
  cases h with
  | reported hio => exact ⟨bank, .reported hio, ha, hb⟩
  | counted hio hc => exact ⟨bank, .counted hio hc, ha, hb⟩
  | truncated hio hc hl => exact ⟨bank, .truncated hio hc hl, ha, hb⟩
  | delay raw val due hn => exact ⟨bank, .delay raw val (due.otherBank bank) hn, ha, hb⟩
  | noEntry raw val due hn hr => exact ⟨bank, .noEntry raw val (due.otherBank bank) hn hr, ha, hb⟩
  | unmapped raw val r due hn hr hl hm =>
    exact ⟨bank, .unmapped raw val r (due.otherBank bank) hn hr hl hm, ha, hb⟩
  | stored raw val r out due hn hr hv =>
    exact ⟨bank.write r out,
      .stored raw val r out (due.otherBank bank) hn hr ((ha.applyValue_eq ..).symm.trans hv),
      ha.write hs hb r out, Memory.write_wf r out hb⟩

/-- Settles O51: LOAD leaves the bank alone, and in RUN the bank is read at algorithm registers only. -/
theorem levelCellsAreNeverObserved : Obligations.LevelCellsAreNeverObserved := by
  intro s t bank hs hb ha hstep
  rcases step_next_iff.1 hstep with ⟨hp, h⟩ | ⟨hp, h⟩
  · obtain ⟨hkept, h'⟩ := h.otherBank bank
    exact ⟨bank, h'.step_eq hp, hkept ▸ ha, hb⟩
  · obtain ⟨bank', h', ha', hb'⟩ := h.otherBank hs hb ha
    exact ⟨bank', h'.step_eq hp, ha', hb'⟩

/-! ### The configuration and the output -/

/-- Settles O11: every move of either phase is one of the named updates, and none of them writes these fields. -/
theorem configurationIsConstant : Obligations.ConfigurationIsConstant := by
  intro s t hstep
  rcases step_next_iff.1 hstep with ⟨hp, h⟩ | ⟨hp, h⟩
  · cases h <;> simp [hp]
  · cases h <;> simp

/-- Settles O12: in LOAD only the entry to RUN emits, and in RUN only a completed pair does. -/
theorem outputIsAppendOnly : Obligations.OutputIsAppendOnly := by
  intro s t hstep
  rcases step_next_iff.1 hstep with ⟨hp, h⟩ | ⟨hp, h⟩
  · refine ⟨fun _ => ?_, fun hr => by simp [hp] at hr⟩
    cases h with
    | runEntered => exact .inl ⟨rfl, rfl⟩
    | _ => exact .inr (by simp [hp])
  · refine ⟨fun hl => by simp [hp] at hl, fun _ => ?_⟩
    cases h with
    | delay => exact .inl ⟨hp, rfl, rfl, _, _, rfl⟩
    | stored => exact .inl ⟨hp, rfl, rfl, _, _, rfl⟩
    | _ => exact .inr (by simp)

/-! ### Reset and the ends of a pass -/

/-- Settles O1: the reset state is given field by field, and its bank lists no cell. -/
theorem resetLeavesTheSpecValues : Obligations.ResetLeavesTheSpecValues :=
  ⟨fun _ => rfl, rfl, rfl, rfl, rfl, rfl, rfl, rfl⟩

/-- Settles O2: reset stands in LOAD at offset 0 with no latch set. -/
theorem resetMeetsThePassInvariant : Obligations.ResetMeetsThePassInvariant :=
  inv_of_live (.inl rfl) State.reset_bank_wf ⟨rfl, rfl, rfl⟩ ⟨rfl, rfl, rfl, .inl rfl⟩

/-- Settles O4: the next action of an ended pass is its stop. -/
theorem endedPassTakesNoStep : Obligations.EndedPassTakesNoStep := by
  intro s
  constructor <;> intro hp <;> simp [step, nextAction, hp]

end Sys2Proof.Machine
end

section
/-!
PROOFS. The statement of 20_memory.md: the check every codemap read makes of its index.
-/

namespace Sys2Proof.Machine

/-- An index at or above `CODEMAP_LEN` has no entry, whatever `CODEMAP` holds (20_memory.md R36). -/
theorem realOf_eq_none_of_le {s : State} {p : Pair} (h : s.header.codemapLen ≤ maskedReg p) : realOf s p = none := by
  rw [realOf, codemapEntry, if_neg (BitVec.not_lt.2 h)]

/-- The five classes that read the codemap read it first, and all else they do is the real register's continuation. -/
theorem exec_eq_withRealReg {p : Pair} {i : Instr}
    (hi : i ∈ [Instr.wr p, .lvlUnmapped p, .lvlAdd p, .lvlFmCar p, .lvlFmMod p]) (s : State) :
    ∃ k, exec i s = withRealReg p s k := by
  simp only [List.mem_cons, List.not_mem_nil, or_false] at hi
  rcases hi with rfl | rfl | rfl | rfl | rfl <;> exact ⟨_, rfl⟩

/-- Settles O37: the five classes share one codemap read, which faults where the index has no entry. -/
theorem everyCodemapReadChecksItsIndex : Obligations.EveryCodemapReadChecksItsIndex := by
  intro p s i hi
  refine ⟨realOf_eq_none_of_le, fun hnone => ?_⟩
  obtain ⟨k, hk⟩ := exec_eq_withRealReg hi s
  exact ⟨_, hk.trans (withRealReg_none k hnone), (raiseFault_taken ..).1⟩

end Sys2Proof.Machine
end

section
/-!
PROOFS. The statements of 30_encoding.md: the decode tree against the class table, and the header's byte strings.
-/

namespace Sys2Proof

open Machine

/-! ### The decode tree, class by class -/

/-- An index at or above `CODEMAP_LEN` has no entry, however long the codemap is (20_memory.md R36). -/
theorem codemapEntry_eq_none_of_le {len m : Byte} {cm : List Byte} (h : len ≤ m) : codemapEntry len cm m = none :=
  if_neg (BitVec.not_lt.2 h)

theorem notDelay_eq_true {c : DecodeCtx} {p : Pair} :
    notDelay c p = true ↔ maskedReg p ≠ c.shortDelay ∧ maskedReg p ≠ c.longDelay := by
  simp [notDelay]

theorem realRegIs_eq_true {c : DecodeCtx} {p : Pair} {test : Byte → Bool} :
    realRegIs c p test = true ↔
      notDelay c p = true ∧ ∃ r, codemapEntry c.codemapLen c.codemap (maskedReg p) = some r ∧ test r = true := by
  simp [realRegIs, Option.any_eq_true]

theorem mappedLevelIs_eq_true {c : DecodeCtx} {test : Byte → Bool} {r : Byte} :
    mappedLevelIs c test r = true ↔
      isLevelRegister r = true ∧ ∃ a, algorithmRegisterFor c.params r = some a ∧ test a = true := by
  simp [mappedLevelIs, Option.any_eq_true]

section
variable {c : DecodeCtx} {p : Pair} {r a : Byte}

theorem decodePair_dlyS (hs : maskedReg p = c.shortDelay) : decodePair c p = .dlyS p := if_pos hs

theorem decodePair_dlyL (hs : maskedReg p ≠ c.shortDelay) (hl : maskedReg p = c.longDelay) :
    decodePair c p = .dlyL p := by
  rw [decodePair, if_neg hs, if_pos hl]

theorem decodePair_xlatFault (hd : notDelay c p = true)
    (he : codemapEntry c.codemapLen c.codemap (maskedReg p) = none) : decodePair c p = .xlatFault p := by
  obtain ⟨hs, hl⟩ := notDelay_eq_true.1 hd
  simp [decodePair, hs, hl, he]

theorem decodePair_real (hd : notDelay c p = true)
    (he : codemapEntry c.codemapLen c.codemap (maskedReg p) = some r) : decodePair c p = decodeReal c p r := by
  obtain ⟨hs, hl⟩ := notDelay_eq_true.1 hd
  simp [decodePair, hs, hl, he]

theorem decodeReal_wr (hr : isLevelRegister r = false) : decodeReal c p r = .wr p := by
  simp [decodeReal, hr]

theorem decodeReal_lvlUnmapped (hr : isLevelRegister r = true) (ha : algorithmRegisterFor c.params r = none) :
    decodeReal c p r = .lvlUnmapped p := by
  simp [decodeReal, hr, ha]

theorem decodePair_mapped (hd : notDelay c p = true)
    (he : codemapEntry c.codemapLen c.codemap (maskedReg p) = some r) (hr : isLevelRegister r = true)
    (ha : algorithmRegisterFor c.params r = some a) : decodePair c p = decodeMappedLevel c p r a := by
  simp [decodePair_real hd he, decodeReal, hr, ha]

theorem decodeMappedLevel_lvlAdd (hb : algoBit c.bank a = true) : decodeMappedLevel c p r a = .lvlAdd p := by
  simp [decodeMappedLevel, hb]

theorem decodeMappedLevel_lvlFmCar (hb : algoBit c.bank a = false) (hc : isCarrier c.params r = true) :
    decodeMappedLevel c p r a = .lvlFmCar p := by
  simp [decodeMappedLevel, hb, hc]

theorem decodeMappedLevel_lvlFmMod (hb : algoBit c.bank a = false) (hc : isCarrier c.params r = false) :
    decodeMappedLevel c p r a = .lvlFmMod p := by
  simp [decodeMappedLevel, hb, hc]

end

/-! ### The decoder and the encoder (R55 to R64) -/

/-- A pair's own two bytes are read back as that pair, of the class the tree gives it. -/
theorem decode_pairBytes {c : DecodeCtx} {p : Pair} {i : Instr} (hp : c.position = .pairs)
    (hd : decodePair c p = i) (rest : List Byte) : decode c (pairBytes p ++ rest) = .ok i := by
  simp [decode, hp, pairBytes, pairOfBytes_rawReg, hd]

/-- Settles O14: each row of the class table leads the tree to its own class. -/
theorem decodeOfEncode : Obligations.DecodeOfEncode := by
  intro c i rest h
  cases i <;> simp only [WellFormed, Bool.and_eq_true, decide_eq_true_eq, realRegIs_eq_true, mappedLevelIs_eq_true,
    Bool.not_eq_true', Option.isNone_iff_eq_none, and_assoc] at h <;> obtain ⟨hp, h⟩ := h
  case loadHeader b => simp [decode, encode, hp, inRead, ← h]
  case loadCodemap e => simp [decode, encode, hp, inRead, ← h]
  case dlyS p => exact decode_pairBytes hp (decodePair_dlyS h) rest
  case dlyL p =>
    obtain ⟨hl, hs⟩ := h
    exact decode_pairBytes hp (decodePair_dlyL hs hl) rest
  case xlatFault p =>
    obtain ⟨hd, he⟩ := h
    exact decode_pairBytes hp (decodePair_xlatFault hd (codemapEntry_eq_none_of_le he)) rest
  case wr p =>
    obtain ⟨hd, r, he, hr⟩ := h
    exact decode_pairBytes hp ((decodePair_real hd he).trans (decodeReal_wr hr)) rest
  case lvlUnmapped p =>
    obtain ⟨hd, r, he, hr, ha⟩ := h
    exact decode_pairBytes hp ((decodePair_real hd he).trans (decodeReal_lvlUnmapped hr ha)) rest
  case lvlAdd p =>
    obtain ⟨hd, r, he, hr, a, ha, hb⟩ := h
    exact decode_pairBytes hp ((decodePair_mapped hd he hr ha).trans (decodeMappedLevel_lvlAdd hb)) rest
  case lvlFmCar p =>
    obtain ⟨hd, r, he, hr, ⟨a, ha, hb⟩, hc⟩ := h
    exact decode_pairBytes hp ((decodePair_mapped hd he hr ha).trans (decodeMappedLevel_lvlFmCar hb hc)) rest
  case lvlFmMod p =>
    obtain ⟨hd, r, he, hr, ⟨a, ha, hb⟩, hc⟩ := h
    exact decode_pairBytes hp ((decodePair_mapped hd he hr ha).trans (decodeMappedLevel_lvlFmMod hb hc)) rest

theorem pairBytes_pairOfBytes (raw val : Byte) : pairBytes (pairOfBytes raw val) = [raw, val] := by
  rw [pairBytes, rawReg_pairOfBytes]
  rfl

/-- What the tree gives for a pair is well formed by the class table, and is made of the pair's two bytes. -/
theorem wellFormed_encode_decodePair {c : DecodeCtx} (hp : c.position = .pairs)
    (hlen : c.codemap.length = c.codemapLen.toNat) (p : Pair) :
    WellFormed c (decodePair c p) = true ∧ encode (decodePair c p) = pairBytes p := by
  rcases decodePair_cases c p with ⟨hs, h⟩ | ⟨hs, hl, h⟩ | ⟨hs, hl, ⟨he, h⟩ | ⟨r, he, h⟩⟩
  · exact h ▸ ⟨by simp [WellFormed, hp, hs], rfl⟩
  · exact h ▸ ⟨by simpa [WellFormed, hp, hl] using hl ▸ hs, rfl⟩
  · exact h ▸ ⟨by simpa [WellFormed, hp, notDelay, hs, hl] using (codemapEntry_eq_none hlen).1 he, rfl⟩
  have real {test : Byte → Bool} (ht : test r = true) : realRegIs c p test = true :=
    realRegIs_eq_true.2 ⟨notDelay_eq_true.2 ⟨hs, hl⟩, r, he, ht⟩
  rcases h with ⟨hr, h⟩ | ⟨hr, ha, h⟩ | ⟨a, hr, ha, ⟨hb, h⟩ | ⟨hb, hc, h⟩ | ⟨hb, hc, h⟩⟩ <;>
    refine h ▸ ⟨?_, rfl⟩ <;> simp only [WellFormed, hp, decide_true, Bool.true_and] <;> apply real
  · simp [hr]
  · simp [hr, ha]
  · simp [mappedLevelIs, hr, ha, hb]
  · simp [mappedLevelIs, hr, ha, hb, hc]
  · simp [mappedLevelIs, hr, ha, hb, hc]

/-- Settles O15: what the tree gives for the pair made of the two bytes. -/
theorem decodedPairIsWellFormed : Obligations.DecodedPairIsWellFormed := by
  intro c raw val rest hp hlen
  obtain ⟨hw, he⟩ := wellFormed_encode_decodePair hp hlen (pairOfBytes raw val)
  exact ⟨_, by rw [decode, hp], hw, he.trans (pairBytes_pairOfBytes raw val)⟩

/-- Settles O16: both are what the decoder reads from the one encoding. -/
theorem classOfPairIsUnique : Obligations.ClassOfPairIsUnique := by
  intro c i j _ hi hj hij
  have hi' := decodeOfEncode c i [] hi
  rw [hij, decodeOfEncode c j [] hj] at hi'
  exact (Except.ok.inj hi').symm

/-! ### Delay codes (R65, R66) and operands (R59) -/

theorem maskedReg_lt (p : Pair) : maskedReg p < 0x80#8 := by
  have mask : ∀ x : Byte, x &&& 0x7F#8 < 0x80#8 := by decide
  exact mask (rawReg p)

theorem maskedReg_of_decodePair_dlyS {c : DecodeCtx} {p : Pair} (h : decodePair c p = .dlyS p) :
    maskedReg p = c.shortDelay := by
  by_contra hs
  rcases decodePair_cases c p with ⟨hs', -⟩ | ⟨-, -, h'⟩ | ⟨-, -, ⟨-, h'⟩ | ⟨r, -, h'⟩⟩
  · exact hs hs'
  · cases h.symm.trans h'
  · cases h.symm.trans h'
  · simp [h] at h'

theorem maskedReg_of_decodePair_dlyL {c : DecodeCtx} {p : Pair} (h : decodePair c p = .dlyL p) :
    maskedReg p ≠ c.shortDelay ∧ maskedReg p = c.longDelay := by
  rcases decodePair_cases c p with ⟨-, h'⟩ | ⟨hs, hl, -⟩ | ⟨-, -, ⟨-, h'⟩ | ⟨r, -, h'⟩⟩
  · cases h.symm.trans h'
  · exact ⟨hs, hl⟩
  · cases h.symm.trans h'
  · simp [h] at h'

/-- Settles O20: a masked register has bit 7 clear. -/
theorem delayCodeAbove7FNeverMatches : Obligations.DelayCodeAbove7FNeverMatches := by
  intro c p
  have off {code : Byte} (h : 0x80#8 ≤ code) : maskedReg p ≠ code :=
    fun he => BitVec.not_le.2 (maskedReg_lt p) (he ▸ h)
  exact ⟨fun h => ⟨off h, fun hd => off h (maskedReg_of_decodePair_dlyS hd)⟩,
    fun h => ⟨off h, fun hd => off h (maskedReg_of_decodePair_dlyL hd).2⟩⟩

/-- Settles O21: the tree asks for the short code first, and both classes complete the pair as it stands. -/
theorem equalDelayCodesDecodeShort : Obligations.EqualDelayCodesDecodeShort := by
  intro c p heq
  refine ⟨fun hl => decodePair_dlyS (hl.trans heq.symm), fun hd => ?_, fun s => rfl⟩
  obtain ⟨hs, hl⟩ := maskedReg_of_decodePair_dlyL hd
  exact hs (hl.trans heq.symm)

/-- Settles O19: the operands of the pair made of two bytes are masks of the first. -/
theorem pairOperands : Obligations.PairOperands := by
  intro raw val
  refine ⟨rawReg_pairOfBytes raw val, rfl, ?_, maskedReg_pairOfBytes raw val, fun len codemap hlen => ?_⟩
  · rw [bankSelect, rawReg_pairOfBytes]
  rw [maskedReg_pairOfBytes, codemapEntry]
  split_ifs with hlt
  · have hin : (raw &&& 0x7F#8).toNat < codemap.length := hlen ▸ hlt
    rw [List.getElem?_eq_getElem hin, List.getD_eq_getElem _ _ hin]
  · rfl

/-! ### Little-endian byte strings (20_memory.md R40) -/

@[simp] theorem leBytes_length (n v : Nat) : (leBytes n v).length = n := by
  induction n generalizing v with
  | zero => rfl
  | succ n ih => simp [leBytes, ih]

theorem leValue_leBytes (n v : Nat) : leValue (leBytes n v) = v % 256 ^ n := by
  induction n generalizing v with
  | zero => simp [leBytes, leValue, Nat.mod_one]
  | succ n ih => simp [leBytes, leValue, ih, Nat.pow_succ', Nat.mod_mul]

theorem leValue_lt (b : List Byte) : leValue b < 256 ^ b.length := by
  induction b with
  | nil => simp [leValue]
  | cons x rest ih =>
    have := x.isLt
    simp only [leValue, List.length_cons, Nat.pow_succ']
    omega

theorem leBytes_leValue (b : List Byte) : leBytes b.length (leValue b) = b := by
  induction b with
  | nil => rfl
  | cons x rest ih =>
    have hx : BitVec.ofNat 8 (x.toNat + 256 * leValue rest) = x := by bv_omega
    have hr : (x.toNat + 256 * leValue rest) / 256 = leValue rest := by have := x.isLt; omega
    simp only [List.length_cons, leBytes, leValue, hx, hr, ih]

/-- A word of `n` bytes written and read again. -/
theorem ofNat_leValue_leBytes {n w : Nat} (x : BitVec w) (hw : w = 8 * n) :
    BitVec.ofNat w (leValue (leBytes n x.toNat)) = x := by
  subst hw
  have hx : x.toNat < 256 ^ n := Nat.pow_mul 2 8 n ▸ x.isLt
  rw [leValue_leBytes, Nat.mod_eq_of_lt hx, BitVec.ofNat_toNat, BitVec.setWidth_eq]

/-- The word of a byte string, first byte lowest. -/
theorem ofNat_leValue_cons (w : Nat) (x : Byte) (rest : List Byte) :
    BitVec.ofNat w (leValue (x :: rest)) = x.setWidth w ||| BitVec.ofNat w (leValue rest) <<< 8 := by
  have hv : leValue (x :: rest) = leValue rest <<< 8 ||| x.toNat := by
    rw [Nat.shiftLeft_eq, Nat.mul_comm, ← Nat.two_pow_add_eq_or_of_lt x.isLt, leValue, Nat.add_comm]
  apply BitVec.eq_of_toNat_eq
  simp [hv, Nat.shiftLeft_eq, Nat.or_comm]

/-! ### The header image (R55, R56) -/

theorem bytesAt_append_right {x : List Byte} {o : Nat} (h : x.length ≤ o) (y : List Byte) (n : Nat) :
    bytesAt (x ++ y) o n = bytesAt y (o - x.length) n := by
  rw [bytesAt, List.drop_append, List.drop_eq_nil_of_le h]
  rfl

theorem bytesAt_append_left {x : List Byte} {n : Nat} (h : x.length = n) (y : List Byte) :
    bytesAt (x ++ y) 0 n = x := by
  rw [bytesAt, List.drop_zero, List.take_left' h]

/-- A stretch's word by the bytes of the image; past the end both are 0. -/
theorem ofNat_leValue_bytesAt_succ (w : Nat) (b : List Byte) (o n : Nat) :
    BitVec.ofNat w (leValue (bytesAt b o (n + 1)))
      = (b.getD o 0).setWidth w ||| BitVec.ofNat w (leValue (bytesAt b (o + 1) n)) <<< 8 := by
  by_cases h : o < b.length
  · rw [bytesAt, List.drop_eq_getElem_cons h, List.take_succ_cons, ofNat_leValue_cons, List.getD_eq_getElem _ _ h]
    rfl
  · have ho : b.length ≤ o := Nat.not_lt.1 h
    simp [bytesAt, List.drop_eq_nil_of_le, ho, Nat.le_succ_of_le ho, leValue]

theorem ofNat_leValue_bytesAt_one (b : List Byte) (o : Nat) :
    BitVec.ofNat 8 (leValue (bytesAt b o 1)) = b.getD o 0 := by
  rw [ofNat_leValue_bytesAt_succ]
  simp [bytesAt, leValue]

/-- Neighbouring stretches join. -/
theorem bytesAt_append_bytesAt (b : List Byte) {o o' n : Nat} (h : o' = o + n) (m : Nat) :
    bytesAt b o n ++ bytesAt b o' m = bytesAt b o (n + m) := by
  simp [bytesAt, List.take_add, h]

/-- A field of `n` bytes read as a word of that width and written again. -/
theorem leBytes_leValue_bytesAt {b : List Byte} {o n w : Nat} (h : o + n ≤ b.length) (hw : w = 8 * n) :
    leBytes n (BitVec.ofNat w (leValue (bytesAt b o n))).toNat = bytesAt b o n := by
  have hl : (bytesAt b o n).length = n := by simp [bytesAt]; omega
  have hlt := leValue_lt (bytesAt b o n)
  have hid := leBytes_leValue (bytesAt b o n)
  rw [hl] at hlt hid
  rw [BitVec.toNat_ofNat, hw, Nat.pow_mul, Nat.mod_eq_of_lt hlt, hid]

theorem encodeHeader_length {h : Header} (hs : h.signature.length = magicSize) :
    (encodeHeader h).length = headerSize := by
  simp [encodeHeader, hs]

/-- Each field is read back from its own offset. -/
theorem parseHeader_encodeHeader {h : Header} (hs : h.signature.length = magicSize) :
    parseHeader (encodeHeader h) = h := by
  simp [parseHeader, encodeHeader, bytesAt_append_right, bytesAt_append_left, hs, magicSize, ofNat_leValue_leBytes,
    ofNat_leValue_bytesAt_one]

/-- The fields of an image, written again side by side, are the whole image. -/
theorem encodeHeader_parseHeader {b : List Byte} (h : b.length = headerSize) : encodeHeader (parseHeader b) = b := by
  have field {o n w : Nat} (hw : w = 8 * n) (ho : o + n ≤ headerSize) :
      leBytes n (BitVec.ofNat w (leValue (bytesAt b o n))).toNat = bytesAt b o n :=
    leBytes_leValue_bytesAt (h ▸ ho) hw
  have byte {o : Nat} (ho : o + 1 ≤ headerSize) (t : List Byte) :
      BitVec.ofNat 8 (leValue (bytesAt b o 1)) :: t = bytesAt b o 1 ++ t := by
    have hf := field (w := 8) rfl ho
    rw [leBytes, leBytes, BitVec.ofNat_toNat, BitVec.setWidth_eq] at hf
    rw [← List.singleton_append, hf]
  calc encodeHeader (parseHeader b)
      = bytesAt b 0 headerSize := by
        rw [encodeHeader, parseHeader]
        simp (disch := decide) only [field, byte, List.append_nil, bytesAt_append_bytesAt, Nat.reduceAdd]
    _ = b := by rw [bytesAt, List.drop_zero, ← h, List.take_length]

/-- Settles O17: each field is a whole number of bytes, and the fields fill the image without a gap. -/
theorem headerImageRoundTrip : Obligations.HeaderImageRoundTrip :=
  ⟨fun _ hs => ⟨encodeHeader_length hs, parseHeader_encodeHeader hs⟩, fun _ => encodeHeader_parseHeader⟩

/-- R56: a 16-bit field. -/
theorem ofNat_leValue_bytesAt_two (h : List Byte) (o : Nat) :
    BitVec.ofNat 16 (leValue (bytesAt h o 2))
      = (h.getD o 0).setWidth 16 ||| ((h.getD (o + 1) 0).setWidth 16 <<< 8) := by
  simp only [ofNat_leValue_bytesAt_succ]
  simp [bytesAt, leValue]

/-- R56: a 32-bit field. -/
theorem ofNat_leValue_bytesAt_four (h : List Byte) (o : Nat) :
    BitVec.ofNat 32 (leValue (bytesAt h o 4))
      = (h.getD o 0).setWidth 32 ||| ((h.getD (o + 1) 0).setWidth 32 <<< 8)
        ||| ((h.getD (o + 2) 0).setWidth 32 <<< 16) ||| ((h.getD (o + 3) 0).setWidth 32 <<< 24) := by
  simp only [ofNat_leValue_bytesAt_succ]
  simp [bytesAt, leValue, BitVec.shiftLeft_or_distrib, ← BitVec.shiftLeft_add, BitVec.or_assoc]

/-- Settles O18: each of the four fields is its bytes' word, first byte lowest. -/
theorem headerFieldsAreLittleEndian : Obligations.HeaderFieldsAreLittleEndian := by
  intro h _
  exact ⟨ofNat_leValue_bytesAt_two h 8, ofNat_leValue_bytesAt_two h 10, ofNat_leValue_bytesAt_four h 12,
    ofNat_leValue_bytesAt_four h 16⟩

/-- Settles O22: the context and the header are fixed, and the decoder runs on them. -/
theorem sampleWordsDecode : Obligations.SampleWordsDecode := by
  constructor
  · rintro ⟨⟩ rfl rfl rfl rfl rfl rfl rfl
    decide
  · rintro h rfl
    decide

end Sys2Proof
end

section
/-!
PROOFS. The statements of 40_header_load.md: what each LOAD operation leaves, where each of them faults, and the advisory
header fields never read.
-/

namespace Sys2Proof.Machine

/-! ### The two LOAD operations -/

/-- LOAD.HEADER on a whole header with the signature latches it, whatever the other fields hold (R73, R76). -/
theorem execLoadHeader_latch {b : List Byte} {s : State} (hp : s.phase = .load) (h0 : s.inPos = 0)
    (hl : headerSize ≤ b.length) (hm : bytesAt b 0 magicSize = magic) :
    execLoadHeader b s = .next (latchHeader b s) := by
  rw [execLoadHeader, if_pos ⟨hp, h0⟩, if_neg (Nat.not_lt.2 hl), if_neg (not_not_intro hm)]

/-- LOAD.CODEMAP on `CODEMAP_LEN` bytes latches them all and enters RUN (R77, R79). -/
theorem execLoadCodemap_enterRun {c : List Byte} {s : State} (hp : s.phase = .load) (h26 : s.inPos = headerSize)
    (hl : c.length = s.header.codemapLen.toNat) :
    execLoadCodemap c s = .next (enterRun c (latchCodemap c s)) := by
  rw [execLoadCodemap, if_pos ⟨hp, h26⟩, if_neg (Nat.not_lt.2 hl.ge), ← hl, List.take_length]

/-- An IOFailure in the state a step took its report in names the place the step found (R130, R132). -/
theorem raiseIoFailure_taken (s : State) :
    FaultTaken .ioFailure (.inputPosition s.inPos) s (raiseIoFailure (takeIoReport s)) :=
  (raiseFault_taken ..).2

/-- Settles O23: the image has 26 bytes, begins with the signature and reads back as the header. -/
theorem loadHeaderLatchesTheHeader : Obligations.LoadHeaderLatchesTheHeader := by
  intro h s hp h0 hm
  have hsig : h.signature.length = magicSize := by rw [hm]; rfl
  have hparse := parseHeader_encodeHeader hsig
  have hmagic : bytesAt (encodeHeader h) 0 magicSize = magic := (congrArg Header.signature hparse).trans hm
  calc exec (.loadHeader (encodeHeader h)) s
      = .next (latchHeader (encodeHeader h) s) := execLoadHeader_latch hp h0 (encodeHeader_length hsig).ge hmagic
    _ = .next { s with header := h, hdrBytes := encodeHeader h, inPos := 26 } := by rw [latchHeader, hparse]

/-- Settles O25: with a whole header to read, the step is decided by the signature alone. -/
theorem signatureComparisonIsExact : Obligations.SignatureComparisonIsExact := by
  intro s hp h0 hio hl hout
  by_cases hm : s.input.take magicSize = magic
  · exact ⟨_, (LoadStep.headerLatched hio h0 hl hm).step_eq hp, hout, fun hne => absurd hm hne,
      fun _ => ⟨hp, rfl, rfl⟩⟩
  · exact ⟨_, (LoadStep.badSignature hio h0 hl hm).step_eq hp, hout, fun _ => ⟨(raiseFault_taken ..).2, rfl⟩,
      fun he => absurd he hm⟩

/-- Settles O24: the short header is a move of LOAD, and a fault entry leaves the end reason as it was. -/
theorem shortHeaderRaisesIoFailure : Obligations.ShortHeaderRaisesIoFailure := by
  intro s hp h0 hio hl
  exact ⟨_, (LoadStep.shortHeader hio h0 hl).step_eq hp, h0 ▸ raiseIoFailure_taken s, rfl, id⟩

/-- Settles O26: the codemap is as long as the header says, so that all of it is latched and emitted. -/
theorem loadCodemapEntersRun : Obligations.LoadCodemapEntersRun :=
  fun _ _ hp h26 hl => execLoadCodemap_enterRun hp h26 hl

/-- Settles O27: what the input holds behind the header is shorter than `CODEMAP_LEN`. -/
theorem shortCodemapRaisesIoFailure : Obligations.ShortCodemapRaisesIoFailure := by
  intro s hp h26 hio _ hl
  have hshort : (bytesAt s.input headerSize s.header.codemapLen.toNat).length < s.header.codemapLen.toNat := by
    simp only [bytesAt, List.length_take, List.length_drop, headerSize]
    omega
  exact ⟨_, (LoadStep.shortCodemap hio h26 hshort).step_eq hp, h26 ▸ raiseIoFailure_taken s, rfl⟩

/-! ### The advisory fields (R80) -/

/-- Behind the header, LOAD reads `CODEMAP_LEN` and the kept bytes, and no other header field. -/
theorem LoadStep.otherAdvisory {s t : State} (h : LoadStep s t) (h0 : s.inPos ≠ 0) (a : Advisory) :
    LoadStep (withAdvisory a s) (withAdvisory a t) := by
  cases h with
  | reported hio => exact .reported hio
  | shortHeader _ h0' => exact absurd h0' h0
  | badSignature _ h0' => exact absurd h0' h0
  | headerLatched _ h0' => exact absurd h0' h0
  | shortCodemap hio h26 hl => exact .shortCodemap hio h26 hl
  | runEntered c hio h26 hc hl => exact .runEntered c hio h26 hc hl

/-- A due pair is due whatever the advisory fields hold. -/
theorem PairDue.otherAdvisory {raw val : Byte} {s : State} (h : PairDue raw val s) (a : Advisory) :
    PairDue raw val (withAdvisory a s) :=
  ⟨h.phase, h.noIo, h.count, h.bytes⟩

/-- RUN reads the pair count, the delay codes and `CODEMAP_LEN`, and no other header field. -/
theorem RunStep.otherAdvisory {s t : State} (h : RunStep s t) (a : Advisory) :
    RunStep (withAdvisory a s) (withAdvisory a t) := by
  cases h with
  | reported hio => exact .reported hio
  | counted hio hc => exact .counted hio hc
  | truncated hio hc hl => exact .truncated hio hc hl
  | delay raw val due hn => exact .delay raw val (due.otherAdvisory a) hn
  | noEntry raw val due hn hr => exact .noEntry raw val (due.otherAdvisory a) hn hr
  | unmapped raw val r due hn hr hl hm => exact .unmapped raw val r (due.otherAdvisory a) hn hr hl hm
  | stored raw val r out due hn hr hv => exact .stored raw val r out (due.otherAdvisory a) hn hr hv

/-- Settles O50: every move of either phase but LOAD.HEADER's is a move with any advisory fields. -/
theorem advisoryFieldsAreNeverRead : Obligations.AdvisoryFieldsAreNeverRead := by
  intro s t a hpast hstep
  rcases step_next_iff.1 hstep with ⟨hp, h⟩ | ⟨hp, h⟩
  · exact (h.otherAdvisory (fun h0 => hpast ⟨hp, h0⟩) a).step_eq hp
  · exact (h.otherAdvisory a).step_eq hp

end Sys2Proof.Machine
end

section
/-!
PROOFS. The statements of 41_classifier.md: the range of the level registers, and the conditions on the tables, for every
table the model takes and for the default ones.
-/

namespace Sys2Proof.Machine

/-! ### Counting registers -/

/-- The registers a test is true of, counted over all 256, are as many as a list of them without repeats is long. -/
theorem length_filter_registers {l : List Byte} {test : Byte → Bool} (hl : l.Nodup)
    (ht : ∀ r, test r = true ↔ r ∈ l) :
    ((List.range 256).filter fun n => test (BitVec.ofNat 8 n)).length = l.length := by
  have hperm : ((List.range 256).filter fun n => test (BitVec.ofNat 8 n)).Perm (l.map BitVec.toNat) := by
    refine (List.perm_ext_iff_of_nodup (List.nodup_range.filter _)
      (hl.map fun _ _ => BitVec.eq_of_toNat_eq)).2 fun n => ?_
    simp only [List.mem_filter, List.mem_range, ht, List.mem_map]
    constructor
    · rintro ⟨hn, hm⟩
      exact ⟨_, hm, Nat.mod_eq_of_lt hn⟩
    · rintro ⟨r, hr, rfl⟩
      exact ⟨r.isLt, by rwa [BitVec.ofNat_toNat, BitVec.setWidth_eq]⟩
  rw [hperm.length_eq, List.length_map]

/-- Settles O38: the range is R83's own, and its members are counted over the 256 registers. -/
theorem levelRegisterRange : Obligations.LevelRegisterRange :=
  ⟨fun _ => isLevelRegister_eq_true, by decide⟩

/-! ### The tables a model takes (R87, R91) -/

/-- A table gives a register for its keys and for no other register. -/
theorem lookupAlgo_isSome {m : List (Byte × Byte)} {r : Byte} :
    (lookupAlgo m r).isSome = true ↔ r ∈ m.map Prod.fst := by
  induction m with
  | nil => simp [lookupAlgo]
  | cons e rest ih =>
    rw [lookupAlgo, List.map_cons, List.mem_cons]
    split
    · simp [*]
    · simp [ih, Ne.symm ‹_›]

/-- The domain of `ALGO_MAP` (R85) is the keys of the table. -/
theorem algorithmRegisterFor_isSome {P : Params} {r : Byte} :
    (algorithmRegisterFor P r).isSome = true ↔ r ∈ P.algoMap.map Prod.fst :=
  lookupAlgo_isSome

/-- The sizes R91 asks for, and the one carrier it names. -/
theorem params_sizes (P : Params) :
    (P.algoMap.map Prod.fst).Nodup ∧ P.algoMap.length = 18 ∧ P.carriers.Nodup ∧ P.carriers.length = 9
      ∧ isCarrier P 0x43#8 = true := by
  have hv := P.valid
  simp only [tablesValid, Bool.and_eq_true, decide_eq_true_eq] at hv
  obtain ⟨⟨⟨⟨⟨⟨⟨hkeys, hmap⟩, -⟩, -⟩, hnodup⟩, hcar⟩, -⟩, h43⟩ := hv
  exact ⟨hkeys, hmap, hnodup, hcar, h43⟩

/-- Settles O55: the keys and the carriers carry no repeats, so that the lengths R91 fixes count registers. -/
theorem tablesTakenMeetTheConditions : Obligations.TablesTakenMeetTheConditions := by
  intro P
  obtain ⟨hkeys, hmap, hnodup, hcar, h43⟩ := params_sizes P
  refine ⟨?_, fun r a h => ?_, ?_, fun _ => isCarrier_mapped, h43⟩
  · rw [length_filter_registers hkeys fun _ => algorithmRegisterFor_isSome, List.length_map, hmap]
  · exact ⟨isLevelRegister_eq_true.1 (algorithmRegisterFor_isLevel h),
      isLevelRegister_eq_false.1 (algorithmRegisterFor_notLevel h)⟩
  · rw [length_filter_registers hnodup fun _ => isCarrier_eq_true, hcar]

/-! ### The default tables (R89, R90) -/

/-- Settles O39: the tables are fixed, so that the nine channels and the 256 registers are gone through. -/
theorem defaultTablesMeetTheConditions : Obligations.DefaultTablesMeetTheConditions :=
  ⟨defaultParams.valid, by decide, by decide⟩

end Sys2Proof.Machine
end

section
/-!
PROOFS. The statements of 42_level_unit.md: the attenuation functions, the modified byte, APPLY, and WR on a level
register.
-/

namespace Sys2Proof.Machine

/-! ### The attenuation functions (R100 to R103) -/

/-- Settles O43: `satsub` is truncated subtraction, and no level is above 63. -/
theorem saturatingSubtractCorners : Obligations.SaturatingSubtractCorners := by
  intro R l
  have hl : l.toNat < 64 := l.isLt
  simp only [satsub_eq_sub, BitVec.toNat_ofNat]
  refine ⟨?_, ?_, ?_, ?_, ?_, ?_, ?_⟩ <;> omega

/-- Settles O44: the first result is a level again, so that the two subtractions are one. -/
theorem saturatingSubtractComposes : Obligations.SaturatingSubtractComposes := by
  intro a b l
  have hlevel : (BitVec.ofNat 6 (l.toNat - a)).toNat = l.toNat - a :=
    Nat.mod_eq_of_lt (Nat.sub_lt_of_lt l.isLt)
  rw [satsub_eq_sub, satsub_eq_sub, satsub_eq_sub, hlevel, Nat.sub_sub]

/-! ### The modified byte (R97, R98) -/

/-- A byte is its KSL bits and its level bits (R60). -/
theorem kslOf_or_level (v : Byte) : kslOf v ||| v &&& 0x3F#8 = v := by
  rw [kslOf, ← BitVec.and_or_distrib_left]
  exact BitVec.and_allOnes

theorem toNat_levelOf (v : Byte) : (levelOf v).toNat = (v &&& 0x3F#8).toNat := by
  simp [levelOf, Nat.and_two_pow_sub_one_eq_mod v.toNat 6]

/-- The mask of R98 is the remainder by 64. -/
theorem toNat_maskLevel (n : Nat) : (maskLevel n).toNat = n % 64 := by
  rw [maskLevel, BitVec.toNat_and, BitVec.toNat_ofNat]
  exact (Nat.and_two_pow_sub_one_eq_mod _ 6).trans (Nat.mod_mod_of_dvd n (by decide))

section
variable (P : Params) (R : Nat) (v : Byte)

/-- The KSL bits of a modified value are the value's own (R97). -/
theorem attenuate_and_ksl : attenuate P R v &&& 0xC0#8 = v &&& 0xC0#8 := by
  simp [attenuate, kslOf, maskLevel, BitVec.and_or_distrib_right, BitVec.and_assoc]

/-- The level bits of a modified value are the masked result (R98). -/
theorem attenuate_and_level : attenuate P R v &&& 0x3F#8 = maskLevel (attenFn P.atten R (levelOf v)) := by
  simp [attenuate, kslOf, maskLevel, BitVec.and_or_distrib_right, BitVec.and_assoc]

end

/-- Settles O42: the two halves of the byte, and the mask as a remainder. -/
theorem attenuationKeepsKslAndMasksLevel : Obligations.AttenuationKeepsKslAndMasksLevel := by
  intro P R v
  exact ⟨attenuate_and_ksl P R v, by rw [attenuate_and_level, toNat_maskLevel]⟩

/-- Settles O46: the level that ORIGINAL_ZERO gives has no bit set. -/
theorem originalZeroVariant : Obligations.OriginalZeroVariant := by
  intro P R v hf
  have hlevel : maskLevel 0 = 0#8 := by decide
  rw [attenuate, hf, attenFn, hlevel, BitVec.or_zero, kslOf]

/-! ### The modified byte under `satsub` (R104) -/

section
variable {P : Params} {R : Nat} {v : Byte}

/-- The KSL bits stay, so that the level bits decide whether the value changes. -/
theorem attenuate_eq_self_iff :
    attenuate P R v = v ↔ (attenuate P R v &&& 0x3F#8).toNat = (v &&& 0x3F#8).toNat := by
  refine ⟨congrArg fun x : Byte => (x &&& 0x3F#8).toNat, fun h => ?_⟩
  calc attenuate P R v
      = kslOf (attenuate P R v) ||| attenuate P R v &&& 0x3F#8 := (kslOf_or_level _).symm
    _ = kslOf v ||| v &&& 0x3F#8 := by rw [kslOf, attenuate_and_ksl, BitVec.eq_of_toNat_eq h, kslOf]
    _ = v := kslOf_or_level v

/-- The level bits lose `R`, down to 0; the mask of R98 takes nothing away (R100). -/
theorem toNat_attenuate_and_level_of_satsub (hf : P.atten = .satsub) :
    (attenuate P R v &&& 0x3F#8).toNat = (v &&& 0x3F#8).toNat - R := by
  have hlt : (levelOf v).toNat - R < 64 := Nat.sub_lt_of_lt (levelOf v).isLt
  rw [attenuate_and_level, toNat_maskLevel, hf, attenFn, satsub_eq_sub, Nat.mod_eq_of_lt hlt, toNat_levelOf]

/-- The value is kept exactly where there is nothing to subtract, or nothing to subtract from. -/
theorem attenuate_eq_self_iff_of_satsub (hf : P.atten = .satsub) :
    attenuate P R v = v ↔ R = 0 ∨ v &&& 0x3F#8 = 0#8 := by
  rw [attenuate_eq_self_iff, toNat_attenuate_and_level_of_satsub hf, ← BitVec.toNat_inj, BitVec.toNat_ofNat]
  omega

end

/-! ### APPLY (R93 to R96) -/

theorem modifies_eq_true {P : Params} {bank : Memory} {a r : Byte} :
    modifies P bank a r = true ↔ bank.read a &&& 0x01#8 = 1#8 ∨ r ∈ P.carriers := by
  rw [modifies, Bool.or_eq_true, algoBit_eq_true, isCarrier_eq_true]

/-- Settles O45: the laws of the modified byte; with `R = 0` both branches of the decision return the value. -/
theorem lawsOfApplyUnderSatsub : Obligations.LawsOfApplyUnderSatsub := by
  intro P R v hf
  have level_le : attenuate P R v &&& 0x3F#8 ≤ v &&& 0x3F#8 := by
    rw [BitVec.le_def, toNat_attenuate_and_level_of_satsub hf]
    exact Nat.sub_le ..
  have zero_reduction : attenuate P 0 v = v := (attenuate_eq_self_iff_of_satsub hf).2 (.inl rfl)
  refine ⟨attenuate_and_ksl P R v, level_le, attenuate_eq_self_iff_of_satsub hf,
    fun bank r a hl ha => ⟨fun hm => ?_, ?_⟩, fun bank _ => applyValue_nonLevel P 0 bank v⟩
  · simp [applyValue_mapped R bank v hl ha, hm]
  · rw [applyValue_mapped 0 bank v hl ha, zero_reduction, ite_self]

/-- Settles O41: R96's table, behind the lookup of R95. -/
theorem modifyDecisionOfApply : Obligations.ModifyDecisionOfApply := by
  intro P R bank r v hl
  refine ⟨applyValue_unmapped R bank v hl, fun a ha => ?_⟩
  rw [applyValue_mapped R bank v hl ha]
  refine ⟨fun hadd => ?_, fun _ hcar => ?_, fun hfm hmod => ?_⟩
  · rw [if_pos (modifies_eq_true.2 (.inl hadd))]
  · rw [if_pos (modifies_eq_true.2 (.inr hcar))]
  · simp [modifies_eq_true, hfm, hmod]

section
variable {p : Pair} {s : State} {r out : Byte}

/-- Where APPLY has a value, it is stored (R99). -/
theorem applyLevelUnit_of_some {v : Byte} (h : applyValue s.params s.reduction s.bank r v = some out) :
    applyLevelUnit r v s = some (out, writeBank r out s) := by
  rw [applyLevelUnit, h, Option.map_some]

/-- What a stored and completed pair leaves: the pair emitted and counted, and the one cell written (R113 to R115). -/
theorem storeAndComplete_completed (hb : s.bank.wf = true) :
    PairCompleted p out s (storeAndComplete p r out s) ∧ BankWritten r out s (storeAndComplete p r out s) :=
  ⟨completePair_completed p out s (s.bank.write r out), Memory.read_write hb r out⟩

/-- WR stores and emits the value APPLY has (R112). -/
theorem exec_wr_of_applyValue_some (hr : realOf s p = some r)
    (h : applyValue s.params s.reduction s.bank r p.value = some out) :
    exec (.wr p) s = .next (storeAndComplete p r out s) := by
  rw [exec, execWr, withRealReg_some _ hr, applyLevelUnit_of_some h, storeAndComplete]

/-- WR takes UnmappedLevelRegister where APPLY raises it (R95, R112). -/
theorem exec_wr_of_applyValue_none (hr : realOf s p = some r)
    (h : applyValue s.params s.reduction s.bank r p.value = none) :
    exec (.wr p) s = .next (raiseFault .unmappedLevelRegister (.realRegister s.pc r) s) := by
  rw [exec, execWr, withRealReg_some _ hr, applyLevelUnit, h, Option.map_none]

end

/-- Settles O40: off the level registers APPLY's value is its argument, and the state APPLY leaves is one bank write. -/
theorem nonLevelPathOfApply : Obligations.NonLevelPathOfApply := by
  intro s r v hl hb
  exact ⟨_, applyLevelUnit_of_some (applyValue_nonLevel _ _ _ v hl), Memory.read_write hb r v, rfl⟩

/-- Settles O31: WR does what APPLY's value says, and on a level register that value is R95's and R96's. -/
theorem writeOfLevelRegisterIsApply : Obligations.WriteOfLevelRegisterIsApply := by
  intro p s r hb hr hl
  refine ⟨fun ha => ?_, fun a ha => ?_⟩
  · exact ⟨_, exec_wr_of_applyValue_none hr (applyValue_unmapped _ _ _ hl ha), (raiseFault_taken ..).1⟩
  · obtain ⟨hcompleted, hwritten⟩ := storeAndComplete_completed hb
    exact ⟨_, _, exec_wr_of_applyValue_some hr (applyValue_mapped _ _ _ hl ha), hcompleted, hwritten,
      by simp only [modifies_eq_true]⟩

end Sys2Proof.Machine
end

section
/-!
PROOFS. The statements of 43_transcoder.md: the ends of a pass, what selects each pair class and what it does, the
consolidated step, and what every step keeps of the output.
-/

namespace Sys2Proof.Machine

/-! ### The ends of a pass, and the fetch -/

/-- Settles O5: a RUN step with the count reached is the count's end, the report taken. -/
theorem countReachedEndsThePass : Obligations.CountReachedEndsThePass :=
  fun _ hp hio hc => (RunStep.counted hio hc).step_eq hp

/-- Settles O6: a RUN step short of a pair is the truncated end, the report taken. -/
theorem truncatedInputEndsThePass : Obligations.TruncatedInputEndsThePass :=
  fun _ hp hio hc hl => (RunStep.truncated hio hc hl).step_eq hp

/-- Settles O9: with no report and the count not reached, the live action is the fetch, which gives the operation. -/
theorem stepRunsTheDecodedInstruction : Obligations.StepRunsTheDecodedInstruction := by
  intro s i hp hio hi
  have hcount : countReached s = false := by
    rcases hp with hp | ⟨hp, hc⟩
    · simp [countReached, hp]
    · simp [countReached, hc]
  have hfetch : fetch (takeIoReport s) = .ok i := hi
  have hnext : nextAction s = .execute i (takeIoReport s) := by
    simp [nextAction_live (hp.imp_right And.left), liveAction, hio, hcount, fetchAction, hfetch]
  rw [step, hnext, takeIoReport]

/-- Settles O13: a step into DONE keeps the invariant, which places `OUT` and `in_pos` behind `pc` pairs. -/
theorem outputSizeAtTheEnd : Obligations.OutputSizeAtTheEnd := by
  intro s t h hstep hdone
  have ht : Inv t := stepKeepsThePassInvariant s t h hstep
  have hl : InPairs t := by simpa [PhaseExplained, hdone] using ht.phase
  have hsize : t.out.length = headerSize + t.header.codemapLen.toNat + 2 * t.pc.toNat := hl.outSize.trans hl.inPos
  refine ⟨hsize, fun hcount hlen => ?_⟩
  have hpc : t.pc = t.header.pairCount := by simpa [EndExplained, hcount] using ht.ending
  rw [hsize, hlen, hpc]

/-! ### What selects each pair class (R62, R63) -/

/-- The class the ordered tree gives a pair in a context, with what selects it (R62, R63). -/
inductive PairClass (c : DecodeCtx) (p : Pair) : Instr → Prop
  | dlyS : maskedReg p = c.shortDelay → PairClass c p (.dlyS p)
  | dlyL : maskedReg p = c.longDelay → maskedReg p ≠ c.shortDelay → PairClass c p (.dlyL p)
  | xlatFault : notDelay c p = true → codemapEntry c.codemapLen c.codemap (maskedReg p) = none →
      PairClass c p (.xlatFault p)
  | wr (r : Byte) : notDelay c p = true → codemapEntry c.codemapLen c.codemap (maskedReg p) = some r →
      isLevelRegister r = false → PairClass c p (.wr p)
  | lvlUnmapped (r : Byte) : notDelay c p = true → codemapEntry c.codemapLen c.codemap (maskedReg p) = some r →
      isLevelRegister r = true → algorithmRegisterFor c.params r = none → PairClass c p (.lvlUnmapped p)
  | lvlAdd (r a : Byte) : notDelay c p = true → codemapEntry c.codemapLen c.codemap (maskedReg p) = some r →
      isLevelRegister r = true → algorithmRegisterFor c.params r = some a → algoBit c.bank a = true →
      PairClass c p (.lvlAdd p)
  | lvlFmCar (r a : Byte) : notDelay c p = true → codemapEntry c.codemapLen c.codemap (maskedReg p) = some r →
      isLevelRegister r = true → algorithmRegisterFor c.params r = some a → algoBit c.bank a = false →
      isCarrier c.params r = true → PairClass c p (.lvlFmCar p)
  | lvlFmMod (r a : Byte) : notDelay c p = true → codemapEntry c.codemapLen c.codemap (maskedReg p) = some r →
      isLevelRegister r = true → algorithmRegisterFor c.params r = some a → algoBit c.bank a = false →
      isCarrier c.params r = false → PairClass c p (.lvlFmMod p)

theorem PairClass.of_decodePair (c : DecodeCtx) (p : Pair) : PairClass c p (decodePair c p) := by
  rcases decodePair_cases c p with ⟨hs, h⟩ | ⟨hs, hl, h⟩ | ⟨hs, hl, h⟩
  · exact h ▸ .dlyS hs
  · exact h ▸ .dlyL hl hs
  have hd : notDelay c p = true := notDelay_eq_true.2 ⟨hs, hl⟩
  rcases h with ⟨he, h⟩ | ⟨r, he, ⟨hr, h⟩ | ⟨hr, ha, h⟩ | ⟨a, hr, ha, ⟨hb, h⟩ | ⟨hb, hc, h⟩ | ⟨hb, hc, h⟩⟩⟩
  · exact h ▸ .xlatFault hd he
  · exact h ▸ .wr r hd he hr
  · exact h ▸ .lvlUnmapped r hd he hr ha
  · exact h ▸ .lvlAdd r a hd he hr ha hb
  · exact h ▸ .lvlFmCar r a hd he hr ha hb hc
  · exact h ▸ .lvlFmMod r a hd he hr ha hb hc

theorem PairClass.decodePair_eq {c : DecodeCtx} {p : Pair} {i : Instr} (h : PairClass c p i) : decodePair c p = i := by
  cases h with
  | dlyS hs => exact decodePair_dlyS hs
  | dlyL hl hs => exact decodePair_dlyL hs hl
  | xlatFault hd he => exact decodePair_xlatFault hd he
  | wr r hd he hr => exact (decodePair_real hd he).trans (decodeReal_wr hr)
  | lvlUnmapped r hd he hr ha => exact (decodePair_real hd he).trans (decodeReal_lvlUnmapped hr ha)
  | lvlAdd r a hd he hr ha hb => exact (decodePair_mapped hd he hr ha).trans (decodeMappedLevel_lvlAdd hb)
  | lvlFmCar r a hd he hr ha hb hc => exact (decodePair_mapped hd he hr ha).trans (decodeMappedLevel_lvlFmCar hb hc)
  | lvlFmMod r a hd he hr ha hb hc => exact (decodePair_mapped hd he hr ha).trans (decodeMappedLevel_lvlFmMod hb hc)

/-- The tree gives a pair exactly the class that the conditions select. -/
theorem decodePair_eq_iff {c : DecodeCtx} {p : Pair} {i : Instr} : decodePair c p = i ↔ PairClass c p i :=
  ⟨fun h => h ▸ .of_decodePair c p, PairClass.decodePair_eq⟩

/-! ### The pair classes (R110 to R117) -/

/-- Settles O28: the first test of the tree, and an effect that reads neither bank nor codemap. -/
theorem shortDelayPassesThrough : Obligations.ShortDelayPassesThrough := by
  intro p
  refine ⟨fun c => ⟨maskedReg_of_decodePair_dlyS, decodePair_dlyS⟩, fun s => ?_⟩
  exact ⟨_, rfl, completePair_completed p p.value s s.bank, fun _ => rfl⟩

/-- Settles O29: the second test of the tree, and the effect of DLY.S. -/
theorem longDelayPassesThrough : Obligations.LongDelayPassesThrough := by
  intro p
  refine ⟨fun c => ⟨fun h => (maskedReg_of_decodePair_dlyL h).symm, fun ⟨hl, hs⟩ => decodePair_dlyL hs hl⟩, fun s => ?_⟩
  exact ⟨_, rfl, completePair_completed p p.value s s.bank, fun _ => rfl⟩

/-- Settles O30: off the level registers APPLY's value is its argument, and it is stored and emitted. -/
theorem plainWriteStoresAndPassesThrough : Obligations.PlainWriteStoresAndPassesThrough := by
  intro p
  constructor
  · intro c
    simp only [decodePair_eq_iff, ← isLevelRegister_eq_false]
    constructor
    · intro h
      cases h with
      | wr r hd he hr => exact ⟨hd, r, he, hr⟩
    · rintro ⟨hd, r, he, hr⟩
      exact .wr r hd he hr
  · intro s r hb hr hl
    exact ⟨_, exec_wr_of_applyValue_some hr (applyValue_nonLevel _ _ _ _ (isLevelRegister_eq_false.2 hl)),
      storeAndComplete_completed hb⟩

/-- Settles O32: a carrier with the algorithm bit clear; its attenuated value is stored and emitted. -/
theorem carrierLevelIsAttenuated : Obligations.CarrierLevelIsAttenuated := by
  intro p
  constructor
  · intro c
    simp only [decodePair_eq_iff, ← algoBit_eq_false, ← isCarrier_eq_true]
    constructor
    · intro h
      cases h with
      | lvlFmCar r a hd he hr ha hb hc => exact ⟨hd, r, a, he, hr, ha, hb, hc⟩
    · rintro ⟨hd, r, a, he, hr, ha, hb, hc⟩
      exact .lvlFmCar r a hd he hr ha hb hc
  · intro s r hb hr
    obtain ⟨hcompleted, hwritten⟩ := storeAndComplete_completed hb
    exact ⟨_, _, withRealReg_some _ hr, hcompleted, hwritten, rfl⟩

/-- Settles O33: no carrier and the algorithm bit clear; the value is stored and emitted as it stands. -/
theorem modulatorLevelPassesThrough : Obligations.ModulatorLevelPassesThrough := by
  intro p
  constructor
  · intro c
    simp only [decodePair_eq_iff, ← algoBit_eq_false, ← isCarrier_eq_false]
    constructor
    · intro h
      cases h with
      | lvlFmMod r a hd he hr ha hb hc => exact ⟨hd, r, a, he, hr, ha, hb, hc⟩
    · rintro ⟨hd, r, a, he, hr, ha, hb, hc⟩
      exact .lvlFmMod r a hd he hr ha hb hc
  · intro s r hb hr
    exact ⟨_, withRealReg_some _ hr, storeAndComplete_completed hb⟩

/-- Settles O34: the algorithm bit set, carrier or not; the attenuated value is stored and emitted. -/
theorem additiveLevelIsAttenuated : Obligations.AdditiveLevelIsAttenuated := by
  intro p
  constructor
  · intro c
    simp only [decodePair_eq_iff, ← algoBit_eq_true]
    constructor
    · intro h
      cases h with
      | lvlAdd r a hd he hr ha hb => exact ⟨hd, r, a, he, hr, ha, hb⟩
    · rintro ⟨hd, r, a, he, hr, ha, hb⟩
      exact .lvlAdd r a hd he hr ha hb
  · intro s r hb hr
    obtain ⟨hcompleted, hwritten⟩ := storeAndComplete_completed hb
    exact ⟨_, _, withRealReg_some _ hr, hcompleted, hwritten, rfl⟩

/-- Settles O35: in a whole codemap exactly an index at or above its length has no entry; the class is a fault entry. -/
theorem missingCodemapEntryFaults : Obligations.MissingCodemapEntryFaults := by
  intro p
  refine ⟨fun c hlen => ?_, fun s => ⟨_, rfl, rfl, rfl, (raiseFault_taken ..).1⟩⟩
  rw [decodePair_eq_iff, ← codemapEntry_eq_none hlen]
  constructor
  · intro h
    cases h with
    | xlatFault hd he => exact ⟨hd, he⟩
  · rintro ⟨hd, he⟩
    exact .xlatFault hd he

/-- Settles O36: a level register the lookup of R95 does not find; the class is the fault entry. -/
theorem unmappedLevelRegisterFaults : Obligations.UnmappedLevelRegisterFaults := by
  intro p
  constructor
  · intro c
    rw [decodePair_eq_iff]
    constructor
    · intro h
      cases h with
      | lvlUnmapped r hd he hr ha => exact ⟨hd, r, he, hr, ha⟩
    · rintro ⟨hd, r, he, hr, ha⟩
      exact .lvlUnmapped r hd he hr ha
  · intro s r hr
    exact ⟨_, withRealReg_some _ hr, rfl, rfl, (raiseFault_taken ..).1⟩

/-! ### The bank-select bit (R119) -/

theorem notDelay_bank (c : DecodeCtx) (p : Pair) (b : BitVec 1) : notDelay c { p with bank := b } = notDelay c p := by
  rw [notDelay, notDelay, maskedReg_bank]

/-- No condition that selects a class reads the bank select. -/
theorem PairClass.otherBankSelect {c : DecodeCtx} {p : Pair} {i : Instr} (h : PairClass c p i) (b : BitVec 1) :
    PairClass c { p with bank := b } (setBankSelect b i) := by
  have hm := maskedReg_bank p b
  have hn := notDelay_bank c p b
  cases h with
  | dlyS hs => exact .dlyS (hm.trans hs)
  | dlyL hl hs => exact .dlyL (hm.trans hl) (hm ▸ hs)
  | xlatFault hd he => exact .xlatFault (hn.trans hd) (hm ▸ he)
  | wr r hd he hr => exact .wr r (hn.trans hd) (hm ▸ he) hr
  | lvlUnmapped r hd he hr ha => exact .lvlUnmapped r (hn.trans hd) (hm ▸ he) hr ha
  | lvlAdd r a hd he hr ha hb => exact .lvlAdd r a (hn.trans hd) (hm ▸ he) hr ha hb
  | lvlFmCar r a hd he hr ha hb hc => exact .lvlFmCar r a (hn.trans hd) (hm ▸ he) hr ha hb hc
  | lvlFmMod r a hd he hr ha hb hc => exact .lvlFmMod r a (hn.trans hd) (hm ▸ he) hr ha hb hc

/-- What `f b`, an effect in `s` of the pair `p` with bank select `b`, can be where the bank select only routes: one
completion with the pair's own register byte, or one fault, which may name that byte (R119, R126). -/
inductive OnlyRouted (p : Pair) (s : State) (f : BitVec 1 → Host.Outcome State Fault Refusal) : Prop
  | completed (bank : Memory) (out : Byte) :
      (∀ b, f b = .next (completePair { p with bank := b } out { s with bank := bank })) → OnlyRouted p s f
  | rawFault (cause : FaultCause) :
      (∀ b, f b = .next (raiseFault cause (.rawRegister s.pc (rawReg { p with bank := b })) s)) → OnlyRouted p s f
  | fault (cause : FaultCause) (info : FaultInfo) :
      (∀ b, f b = .next (raiseFault cause info s)) → OnlyRouted p s f

/-- The codemap read is the same for both bank selects, so that only its continuation matters. -/
theorem onlyRouted_withRealReg {p : Pair} {s : State} {k : BitVec 1 → Byte → Host.Outcome State Fault Refusal}
    (hk : ∀ r, OnlyRouted p s fun b => k b r) : OnlyRouted p s fun b => withRealReg { p with bank := b } s (k b) := by
  cases hr : codemapEntry s.header.codemapLen s.codemap (maskedReg p) with
  | none => exact .rawFault _ fun b => withRealReg_none _ (by rw [maskedReg_bank, hr])
  | some r =>
    have read (b : BitVec 1) : withRealReg { p with bank := b } s (k b) = k b r :=
      withRealReg_some _ (by rw [maskedReg_bank, hr])
    simpa only [read] using hk r

/-- A store of one value, whatever the bank select. -/
theorem onlyRouted_stored (p : Pair) (s : State) (r out : Byte) :
    OnlyRouted p s fun b => .next (storeAndComplete { p with bank := b } r out s) :=
  .completed (s.bank.write r out) out fun _ => rfl

/-- APPLY does not see the bank select (R105). -/
theorem onlyRouted_wr (p : Pair) (s : State) : OnlyRouted p s fun b => exec (.wr { p with bank := b }) s := by
  refine onlyRouted_withRealReg fun r => ?_
  rcases applyLevelUnit_cases r p.value s with ⟨out, -, h⟩ | ⟨-, h⟩
  · simp only [h]
    exact onlyRouted_stored p s r out
  · simp only [h]
    exact .fault _ _ fun _ => rfl

/-- The effect of every pair class, in any state, is routed only. -/
theorem PairClass.onlyRouted {c : DecodeCtx} {p : Pair} {i : Instr} (h : PairClass c p i) (s : State) :
    OnlyRouted p s fun b => exec (setBankSelect b i) s := by
  cases h with
  | dlyS => exact .completed s.bank p.value fun _ => rfl
  | dlyL => exact .completed s.bank p.value fun _ => rfl
  | xlatFault => exact .rawFault _ fun _ => rfl
  | wr => exact onlyRouted_wr p s
  | lvlUnmapped => exact onlyRouted_withRealReg fun r => .fault _ (.realRegister s.pc r) fun _ => rfl
  | lvlAdd => exact onlyRouted_withRealReg fun r => onlyRouted_stored p s r (attenuate s.params s.reduction p.value)
  | lvlFmCar => exact onlyRouted_withRealReg fun r => onlyRouted_stored p s r (attenuate s.params s.reduction p.value)
  | lvlFmMod => exact onlyRouted_withRealReg fun r => onlyRouted_stored p s r p.value

/-- A pair class with its own bank select is itself. -/
theorem PairClass.setBankSelect_self {c : DecodeCtx} {p : Pair} {i : Instr} (h : PairClass c p i) :
    setBankSelect p.bank i = i := by
  cases h <;> rfl

/-- An effect that is routed only answers with any bank select, and its answers differ as R119 and R126 say. -/
theorem OnlyRouted.sameButBankSelect {p : Pair} {s t : State} {f : BitVec 1 → Host.Outcome State Fault Refusal}
    (h : OnlyRouted p s f) (ht : f p.bank = .next t) (b : BitVec 1) :
    ∃ u, f b = .next u ∧ SameButBankSelect s p b t u := by
  cases h with
  | completed bank out h =>
    cases (h p.bank).symm.trans ht
    exact ⟨_, h b, by constructor <;> rfl, .inl ⟨rfl, rfl, rfl, out, rfl, rfl⟩⟩
  | rawFault cause h =>
    cases (h p.bank).symm.trans ht
    exact ⟨_, h b, by constructor <;> rfl, .inr ⟨rfl, rfl, rfl, rfl, .inr ⟨rfl, rfl⟩⟩⟩
  | fault cause info h =>
    cases (h p.bank).symm.trans ht
    exact ⟨_, h b, by constructor <;> rfl, .inr ⟨rfl, rfl, rfl, rfl, .inl rfl⟩⟩

/-- Settles O49: neither the conditions that select a class nor its effect read the bank select. -/
theorem bankSelectOnlyRoutes : Obligations.BankSelectOnlyRoutes := by
  intro p b
  refine ⟨fun c => ((PairClass.of_decodePair c p).otherBankSelect b).decodePair_eq, fun c s t ht => ?_⟩
  have hclass := PairClass.of_decodePair c p
  exact (hclass.onlyRouted s).sameButBankSelect (hclass.setBankSelect_self.symm ▸ ht) b

/-! ### The consolidated step (R125) -/

/-- The end of a completed pair is R125's last line. -/
theorem completePair_pairOfBytes (raw val out : Byte) (s : State) :
    completePair (pairOfBytes raw val) out s = consolidatedEmit raw out s := by
  rw [completePair, rawReg_pairOfBytes]
  rfl

theorem notDelay_pairOfBytes {s : State} {raw val : Byte} :
    notDelay (decodeCtx s) (pairOfBytes raw val) = true ↔
      ¬ (raw &&& 0x7F#8 = s.header.shortDelay ∨ raw &&& 0x7F#8 = s.header.longDelay) := by
  rw [notDelay_eq_true, maskedReg_pairOfBytes, not_or]
  rfl

theorem consolidatedPair_short {s : State} (hl : s.input.length < s.inPos + 2) :
    consolidatedPair s = endPass .truncated s := by
  unfold consolidatedPair
  split
  · rename_i hd
    have := congrArg List.length hd
    simp at this
    omega
  · rfl

theorem consolidatedWrite_unmapped {s : State} {r : Byte} (raw val : Byte) (hl : isLevelRegister r = true)
    (ha : algorithmRegisterFor s.params r = none) :
    consolidatedWrite raw val r s = raiseFault .unmappedLevelRegister (.realRegister s.pc r) s := by
  rw [consolidatedWrite, if_pos (isLevelRegister_eq_true.1 hl), ha]
  rfl

/-- R125's bank branch stores and emits the value APPLY has (R93 to R99). -/
theorem consolidatedWrite_stored {s : State} {raw val r out : Byte}
    (hv : applyValue s.params s.reduction s.bank r val = some out) :
    consolidatedWrite raw val r s = storeAndComplete (pairOfBytes raw val) r out s := by
  rw [storeAndComplete, completePair_pairOfBytes, consolidatedWrite]
  cases hl : isLevelRegister r with
  | false =>
    rw [applyValue_nonLevel _ _ _ _ hl] at hv
    cases hv
    rw [if_neg (isLevelRegister_eq_false.1 hl), writeBank]
  | true =>
    rw [if_pos (isLevelRegister_eq_true.1 hl)]
    cases ha : algorithmRegisterFor s.params r with
    | none => simp [applyValue_unmapped _ _ _ hl ha] at hv
    | some a =>
      rw [applyValue_mapped _ _ _ hl ha] at hv
      cases hv
      simp only [modifies_eq_true]
      rfl

/-- What the decoded pair does is what R125 computes for its two bytes. -/
theorem exec_decodedPair_eq_consolidated {s : State} {raw val : Byte} {rest : List Byte}
    (hlen : s.codemap.length = s.header.codemapLen.toNat) (hd : s.input.drop s.inPos = raw :: val :: rest) :
    exec (decodePair (decodeCtx s) (pairOfBytes raw val)) s = .next (consolidatedPair s) := by
  rw [consolidatedPair, hd]
  rcases exec_decodedPair_cases s (pairOfBytes raw val) with ⟨hn, h⟩ | ⟨hn, hr, h⟩ | ⟨hn, r, hr, h⟩
  · have hdelay : raw &&& 0x7F#8 = s.header.shortDelay ∨ raw &&& 0x7F#8 = s.header.longDelay := by
      by_contra hnd
      simp [notDelay_pairOfBytes.2 hnd] at hn
    rw [h, completePair_pairOfBytes]
    simp only [if_pos hdelay]
    rfl
  · rw [realOf, codemapEntry_eq_none hlen, maskedReg_pairOfBytes] at hr
    simp only [h, rawReg_pairOfBytes, if_neg (notDelay_pairOfBytes.1 hn), if_pos hr]
    rfl
  · rw [realOf, codemapEntry_eq_some, maskedReg_pairOfBytes] at hr
    obtain ⟨hlt, hget⟩ := hr
    have hreal : s.codemap.getD (raw &&& 0x7F#8).toNat 0 = r := by
      rw [List.getD_eq_getElem?_getD, hget, Option.getD_some]
    simp only [if_neg (notDelay_pairOfBytes.1 hn), if_neg (BitVec.not_le.2 hlt), hreal]
    rcases h with ⟨hl, ha, h⟩ | ⟨out, hv, h⟩
    · rw [h, consolidatedWrite_unmapped raw val hl ha]
    · exact h.trans (congrArg _ (consolidatedWrite_stored (val := val) hv).symm)

/-- Settles O10: the same order of the report, the count and the read, and then the same pair. -/
theorem runStepIsTheConsolidatedFunction : Obligations.RunStepIsTheConsolidatedFunction := by
  intro s hp hlen
  rw [consolidatedStep]
  rcases step_run_cases hp with ⟨hio, h⟩ | ⟨hio, hc, h⟩ | ⟨hio, hc, hl, h⟩ | ⟨hio, hc, raw, val, rest, hd, h⟩
  · rw [h, if_pos hio]
    rfl
  · rw [h, if_neg (by simp [hio]), if_pos hc]
    rfl
  · rw [h, if_neg (by simp [hio]), if_neg hc, consolidatedPair_short (s := takeIoReport s) hl]
  · rw [h, if_neg (by simp [hio]), if_neg hc]
    exact exec_decodedPair_eq_consolidated (s := takeIoReport s) hlen hd

/-! ### What every step keeps of the output -/

/-- APPLY returns its argument or the modified byte (R93, R96). -/
theorem applyValue_eq_some {P : Params} {R : Nat} {bank : Memory} {r v out : Byte}
    (h : applyValue P R bank r v = some out) : out = v ∨ out = attenuate P R v := by
  cases hl : isLevelRegister r with
  | false =>
    rw [applyValue_nonLevel P R bank v hl] at h
    exact .inl (Option.some.inj h).symm
  | true =>
    cases ha : algorithmRegisterFor P r with
    | none => simp [applyValue_unmapped R bank v hl ha] at h
    | some a =>
      rw [applyValue_mapped R bank v hl ha, Option.some.injEq, ite_eq_iff] at h
      exact h.symm.imp (·.2.symm) (·.2.symm)

/-- Behind LOAD, before the first pair, the output is the input's header and codemap (R82). -/
theorem InPairs.out_eq_take {s : State} (h : InPairs s) (hpc : s.pc = 0) : s.out = s.input.take s.out.length := by
  have hend : s.out.length = firstPair s := by rw [h.outSize, h.inPos, hpc]; rfl
  calc s.out = s.out.take (firstPair s) := by rw [← hend, List.take_length]
    _ = s.input.take s.out.length := by rw [h.outHead, hend]

/-- Through LOAD and on entry to RUN, the output is the input's first bytes, and no pair is counted (R79, R82). -/
theorem LoadStep.out_eq_take {s t : State} (hp : s.phase = .load) (h : Inv s) (hs : LoadStep s t) :
    t.pc = 0 ∧ t.out = t.input.take t.out.length := by
  have hl := h.inLoad hp
  cases hs with
  | runEntered c _ h26 hc hlen =>
    exact ⟨rfl, (inPairs_enterRun (hl.samePlace (samePlace_takeIoReport s)) h26 hc hlen).out_eq_take rfl⟩
  | _ => simp [hl.pc, hl.out]

/-- A step in RUN leaves the pass at its place, or completes the pair that is due with its own value or the modified
one (R110 to R118). -/
theorem RunStep.samePlace_or_completed {s t : State} (hs : RunStep s t) :
    SamePlace s t ∨ ∃ raw val out, PairDue raw val s ∧ PairCompleted (pairOfBytes raw val) out (takeIoReport s) t
      ∧ (out = val ∨ out = attenuate s.params s.reduction val) := by
  cases hs with
  | delay raw val due =>
    exact .inr ⟨raw, val, val, due, completePair_completed _ _ (takeIoReport s) s.bank, .inl rfl⟩
  | stored raw val r out due _ _ hv =>
    exact .inr ⟨raw, val, out, due, completePair_completed _ _ (takeIoReport s) (s.bank.write r out),
      applyValue_eq_some hv⟩
  | counted => exact .inl (samePlace_endPass ..)
  | truncated => exact .inl (samePlace_endPass ..)
  | _ => exact .inl (samePlace_raiseFault ..)

/-- A completed pair appends its register byte and its value byte (R118); the input and the place of the first pair are
as before. -/
theorem pairCompleted_out {raw val out : Byte} {s t : State}
    (e : PairCompleted (pairOfBytes raw val) out (takeIoReport s) t) :
    t.out = s.out ++ [raw, out] ∧ t.input = s.input ∧ firstPair t = firstPair s :=
  ⟨by simpa [rawReg_pairOfBytes] using e.out, e.frame.input, by rw [firstPair, e.frame.header]; rfl⟩

/-- Settles O53: LOAD's output is the input's first bytes, and with `satsub` and `R = 0` a completed pair appends
its own two bytes. -/
theorem zeroReductionIdentity : Obligations.ZeroReductionIdentity := by
  intro s t h hf hR hstep hfirst
  rcases step_next_iff.1 hstep with ⟨hp, hs⟩ | ⟨hp, hs⟩
  · exact (hs.out_eq_take hp h).2
  rcases hs.samePlace_or_completed with e | ⟨raw, val, out, due, e, hout⟩
  · rw [e.out, e.input]
    exact hfirst
  · have hval : out = val := by
      rwa [hR, (attenuate_eq_self_iff_of_satsub hf).2 (.inl rfl), or_self] at hout
    obtain ⟨rest, hd⟩ := due.bytes
    have hnext : (s.input.drop s.out.length).take 2 = [raw, val] := by rw [(h.inPairs hp).outSize, hd]; rfl
    obtain ⟨hemitted, hinput, -⟩ := pairCompleted_out e
    have hlen : t.out.length = s.out.length + 2 := by rw [hemitted, List.length_append]; rfl
    rw [hinput, hlen, List.take_add, ← hfirst, hnext, hemitted, hval]

/-- After a completed pair, a position of the output is an earlier one, or one of the pair's two, and there the input
holds the pair. -/
theorem getD_pairCompleted {raw val out : Byte} {s t : State} (hsize : s.out.length = s.inPos)
    (due : PairDue raw val s) (e : PairCompleted (pairOfBytes raw val) out (takeIoReport s) t) {k : Nat}
    (hk : k < t.out.length) :
    (k < s.out.length ∧ t.out.getD k 0 = s.out.getD k 0 ∧ t.input.getD k 0 = s.input.getD k 0)
    ∨ (k = s.out.length ∧ t.out.getD k 0 = raw ∧ t.input.getD k 0 = raw)
    ∨ (k = s.out.length + 1 ∧ t.out.getD k 0 = out ∧ t.input.getD k 0 = val) := by
  obtain ⟨hemitted, hinput, -⟩ := pairCompleted_out e
  obtain ⟨rest, hd⟩ := due.bytes
  rw [← hsize] at hd
  have hread (j : Nat) : s.input.getD (s.out.length + j) 0 = (raw :: val :: rest).getD j 0 := by
    rw [← hd]
    simp
  have hlen : t.out.length = s.out.length + 2 := by rw [hemitted, List.length_append]; rfl
  rw [hinput, hemitted]
  rcases Nat.lt_or_ge k s.out.length with hlt | hge
  · exact .inl ⟨hlt, List.getD_append _ _ _ _ hlt, rfl⟩
  · obtain rfl | rfl : k = s.out.length ∨ k = s.out.length + 1 := by omega
    · exact .inr (.inl ⟨rfl, by simp, hread 0⟩)
    · exact .inr (.inr ⟨rfl, by simp, hread 1⟩)

/-- Settles O52: LOAD's output is the input's first bytes, and a completed pair appends its own register byte and a
value byte with its own top bits, at the two positions they were read from. -/
theorem registerBytesAndTopBitsAreKept : Obligations.RegisterBytesAndTopBitsAreKept := by
  intro s t h hstep htop hreg
  rcases step_next_iff.1 hstep with ⟨hp, hs⟩ | ⟨hp, hs⟩
  · obtain ⟨hpc, hout⟩ := hs.out_eq_take hp h
    refine ⟨fun k hk => ?_, fun k hk => by simp [hpc] at hk⟩
    have hsame : t.out[k]? = t.input[k]? := by rw [hout, List.getElem?_take_of_lt hk]
    rw [List.getD_eq_getElem?_getD, List.getD_eq_getElem?_getD, hsame]
  rcases hs.samePlace_or_completed with e | ⟨raw, val, out, due, e, hout⟩
  · rw [e.out, e.input, e.pc, firstPair, e.header]
    exact ⟨htop, hreg⟩
  have hs' : InPairs s := h.inPairs hp
  have ht' : InPairs t := (stepKeepsThePassInvariant s t h hstep).inPairs (e.frame.phase.trans hp)
  constructor
  · intro k hk
    rcases getD_pairCompleted hs'.outSize due e hk with ⟨hlt, hat, hin⟩ | ⟨-, hat, hin⟩ | ⟨-, hat, hin⟩ <;>
      rw [hat, hin]
    · exact htop k hlt
    · rcases hout with rfl | rfl
      · rfl
      · exact attenuate_and_ksl ..
  · intro k hk
    obtain ⟨-, -, hfirst⟩ := pairCompleted_out e
    have hs_end : s.out.length = firstPair s + 2 * s.pc.toNat := hs'.outSize.trans hs'.inPos
    have ht_end : t.out.length = firstPair t + 2 * t.pc.toNat := ht'.outSize.trans ht'.inPos
    have hk' : firstPair t + 2 * k < t.out.length := by omega
    rcases getD_pairCompleted hs'.outSize due e hk' with ⟨hlt, hat, hin⟩ | ⟨-, hat, hin⟩ | ⟨hodd, -⟩
    · rw [hat, hin, hfirst]
      exact hreg k (by omega)
    · rw [hat, hin]
    · omega

end Sys2Proof.Machine
end

section
/-!
PROOFS. The statements of 60_exceptions.md: the host's report taken first, and the precise entry to FAULT.
-/

namespace Sys2Proof.Machine

/-- Settles O7: the report is the first thing either phase looks at, and IOFailure has code 4 (R126, R135). -/
theorem hostReportIsTakenFirst : Obligations.HostReportIsTakenFirst :=
  fun s hp hio => ⟨_, step_ioFailReported hp hio, raiseIoFailure_taken s, rfl⟩

/-- In LOAD, FAULT is entered by a fault entry alone: the other moves stay in LOAD or enter RUN. -/
theorem LoadStep.eq_raiseFault {s t : State} (hp : s.phase = .load) (hs : LoadStep s t) (hf : t.phase = .fault) :
    ∃ cause info, t = raiseFault cause info (takeIoReport s) := by
  cases hs with
  | headerLatched => simp [hp] at hf
  | runEntered => simp at hf
  | _ => exact ⟨_, _, rfl⟩

/-- In RUN, FAULT is entered by a fault entry alone: the ends of the pass enter DONE and a completed pair stays in
RUN. -/
theorem RunStep.eq_raiseFault {s t : State} (hp : s.phase = .run) (hs : RunStep s t) (hf : t.phase = .fault) :
    ∃ cause info, t = raiseFault cause info (takeIoReport s) := by
  cases hs with
  | counted | truncated => simp at hf
  | delay | stored => simp [hp] at hf
  | _ => exact ⟨_, _, rfl⟩

/-- A step that enters FAULT is a fault entry, with the host's report taken (R132; log 5). -/
theorem eq_raiseFault_of_step {s t : State} (hstep : step s = .next t) (hf : t.phase = .fault) :
    ∃ cause info, t = raiseFault cause info (takeIoReport s) := by
  rcases step_next_iff.1 hstep with ⟨hp, hs⟩ | ⟨hp, hs⟩
  · exact hs.eq_raiseFault hp hf
  · exact hs.eq_raiseFault hp hf

/-- Settles O8: the step is a fault entry, whose frame `raiseFault_taken` gives, and no step leaves FAULT. -/
theorem faultEntryIsPrecise : Obligations.FaultEntryIsPrecise := by
  intro s t hstep hf
  have hstop : step t = .fault (.passFaulted t.fault) := (endedPassTakesNoStep t).2 hf
  obtain ⟨cause, info, rfl⟩ := eq_raiseFault_of_step hstep hf
  exact ⟨(raiseFault_taken cause info s).2, hstop⟩

end Sys2Proof.Machine
end

section
/-!
PROOFS. The statements of 70_reset_and_hazards.md: a second pass over a first pass's output, the algorithm write before a
level pair, and the bank as reset leaves it.
-/

namespace Sys2Proof.Machine

/-! ### The second pass (R148) -/

/-- A byte is determined by its KSL bits and its level bits (R60). -/
theorem eq_of_ksl_of_level {v w : Byte} (hksl : v &&& 0xC0#8 = w &&& 0xC0#8) (hlevel : v &&& 0x3F#8 = w &&& 0x3F#8) :
    v = w := by
  rw [← kslOf_or_level v, ← kslOf_or_level w, kslOf, kslOf, hksl, hlevel]

/-- R103 on whole bytes: the KSL bits stay, and the level bits lose both reductions. -/
theorem attenuate_attenuate_of_satsub {P : Params} (hf : P.atten = .satsub) (a b : Nat) (v : Byte) :
    attenuate P b (attenuate P a v) = attenuate P (a + b) v := by
  apply eq_of_ksl_of_level
  · rw [attenuate_and_ksl, attenuate_and_ksl, attenuate_and_ksl]
  · apply BitVec.eq_of_toNat_eq
    rw [toNat_attenuate_and_level_of_satsub hf, toNat_attenuate_and_level_of_satsub hf,
      toNat_attenuate_and_level_of_satsub hf, Nat.sub_sub]

/-- APPLY over APPLY's own value is one APPLY with both reductions: the decision of R96 does not read the value. Off the
level registers every value is passed through. -/
theorem applyValue_compose_of_satsub {P : Params} {bank : Memory} {a : Nat} {r v out : Byte} (hf : P.atten = .satsub)
    (h : applyValue P a bank r v = some out) (b : Nat) :
    ∃ x, applyValue P b bank r out = some x ∧ applyValue P (a + b) bank r v = some x
      ∧ (isLevelRegister r = false → x = out) := by
  cases hl : isLevelRegister r with
  | false =>
    rw [applyValue_nonLevel P a bank v hl] at h
    cases h
    exact ⟨v, applyValue_nonLevel P b bank v hl, applyValue_nonLevel P (a + b) bank v hl, fun _ => rfl⟩
  | true =>
    cases ha : algorithmRegisterFor P r with
    | none => simp [applyValue_unmapped a bank v hl ha] at h
    | some areg =>
      rw [applyValue_mapped a bank v hl ha] at h
      rw [applyValue_mapped b bank out hl ha, applyValue_mapped (a + b) bank v hl ha]
      cases h
      refine ⟨_, rfl, ?_, fun hnot => nomatch hnot⟩
      cases modifies P bank areg r with
      | false => rfl
      | true => exact congrArg some (attenuate_attenuate_of_satsub hf a b v).symm

/-- Stores to one cell keep the agreement where the values differ in a level cell at most. -/
theorem AgreeOffLevels.write_levelCell {b c : Memory} (h : AgreeOffLevels b c) (hb : b.wf = true) (hc : c.wf = true)
    {r v w : Byte} (hvw : isLevelRegister r = false → w = v) : AgreeOffLevels (b.write r v) (c.write r w) := by
  intro a ha
  rw [Memory.read_write hb, Memory.read_write hc, h a ha]
  split
  · exact (hvw (‹a = r› ▸ ha)).symm
  · rfl

/-- `u` has the tables, the header and the codemap of `s`, so that both read a pair alike. -/
structure SameTables (s u : State) : Prop where
  params  : u.params = s.params
  header  : u.header = s.header
  codemap : u.codemap = s.codemap

section
variable {s u : State} (h : SameTables s u) (raw val val' : Byte)
include h

/-- The delay codes are matched on the register byte alone (R59, R62). -/
theorem SameTables.notDelay_eq :
    notDelay (decodeCtx u) (pairOfBytes raw val') = notDelay (decodeCtx s) (pairOfBytes raw val) := by
  simp [notDelay, decodeCtx, maskedReg_pairOfBytes, h.header]

/-- The real register is translated from the register byte alone (R59). -/
theorem SameTables.realOf_eq : realOf u (pairOfBytes raw val') = realOf s (pairOfBytes raw val) := by
  simp [realOf, maskedReg_pairOfBytes, h.header, h.codemap]

end

section
variable {raw val out r : Byte} {s t : State}

/-- Only one pair is due in a state. -/
theorem PairDue.unique {raw' val' : Byte} (h : PairDue raw val s) (h' : PairDue raw' val' s) :
    raw' = raw ∧ val' = val := by
  obtain ⟨rest, hd⟩ := h.bytes
  obtain ⟨rest', hd'⟩ := h'.bytes
  cases hd.symm.trans hd'
  exact ⟨rfl, rfl⟩

/-- A due delay is emitted as it stands, and the bank is kept (R110, R111). -/
theorem PairDue.step_delay (due : PairDue raw val s) (hd : notDelay (decodeCtx s) (pairOfBytes raw val) = false) :
    ∃ t, step s = .next t ∧ t.out = s.out ++ [raw, val] ∧ t.bank = s.bank :=
  ⟨_, RunStep.step_eq due.phase (.delay raw val due hd), by simp [rawReg_pairOfBytes], by simp⟩

/-- A due pair for which APPLY has a value emits and stores that value (R112 to R115). -/
theorem PairDue.step_stored (due : PairDue raw val s) (hd : notDelay (decodeCtx s) (pairOfBytes raw val) = true)
    (hr : realOf s (pairOfBytes raw val) = some r) (hv : applyValue s.params s.reduction s.bank r val = some out) :
    ∃ t, step s = .next t ∧ t.out = s.out ++ [raw, out] ∧ t.bank = s.bank.write r out :=
  ⟨_, RunStep.step_eq due.phase (.stored raw val r out due hd hr hv), by simp [rawReg_pairOfBytes], by simp⟩

/-- A step that emits a pair has completed the pair that was due: a delay, or one that stored what it emitted. -/
theorem PairDue.emitted_cases (due : PairDue raw val s) (hstep : step s = .next t)
    (hout : t.out = s.out ++ [raw, out]) :
    (notDelay (decodeCtx s) (pairOfBytes raw val) = false ∧ out = val ∧ t.bank = s.bank) ∨
    (notDelay (decodeCtx s) (pairOfBytes raw val) = true ∧ ∃ r, realOf s (pairOfBytes raw val) = some r ∧
      applyValue s.params s.reduction s.bank r val = some out ∧ t.bank = s.bank.write r out) := by
  cases RunStep.of_step due.phase hstep with
  | delay raw' val' due' hd =>
    obtain ⟨rfl, rfl⟩ := due.unique due'
    have hval : val' = out := by simpa [rawReg_pairOfBytes] using hout
    exact .inl ⟨hd, hval.symm, rfl⟩
  | stored raw' val' r out' due' hd hr hv =>
    obtain ⟨rfl, rfl⟩ := due.unique due'
    obtain rfl : out' = out := by simpa [rawReg_pairOfBytes] using hout
    exact .inr ⟨hd, r, hr, hv, rfl⟩
  | _ => simp at hout

end

/-- Settles O54: a delay passes through all three passes; any other pair that completes is stored, and the second pass's
APPLY over the first pass's value is the one pass's APPLY. -/
theorem secondPassComposes : Obligations.SecondPassComposes := by
  intro s s' u w raw val out hf hup hwp hR huh hwh huc hwc hsb hub hwb hsu hsw dueS dueU dueW hstep hout
  have su : SameTables s u := ⟨hup, huh, huc⟩
  have sw : SameTables s w := ⟨hwp, hwh, hwc⟩
  rcases dueS.emitted_cases hstep hout with ⟨hd, rfl, hbank⟩ | ⟨hd, r, hr, hv, hbank⟩
  · obtain ⟨u', hstepU, houtU, hbankU⟩ := dueU.step_delay ((su.notDelay_eq ..).trans hd)
    obtain ⟨w', hstepW, houtW, hbankW⟩ := dueW.step_delay ((sw.notDelay_eq ..).trans hd)
    exact ⟨u', w', out, hstepU, hstepW, houtU, houtW, by rwa [hbank, hbankU], by rwa [hbank, hbankW]⟩
  · obtain ⟨x, hxU, hxW, hkept⟩ := applyValue_compose_of_satsub hf hv u.reduction
    rw [← hup, hsu.applyValue_eq] at hxU
    rw [← hwp, ← hR, hsw.applyValue_eq] at hxW
    obtain ⟨u', hstepU, houtU, hbankU⟩ :=
      dueU.step_stored ((su.notDelay_eq ..).trans hd) ((su.realOf_eq ..).trans hr) hxU
    obtain ⟨w', hstepW, houtW, hbankW⟩ :=
      dueW.step_stored ((sw.notDelay_eq ..).trans hd) ((sw.realOf_eq ..).trans hr) hxW
    refine ⟨u', w', x, hstepU, hstepW, houtU, houtW, ?_, ?_⟩
    · rw [hbank, hbankU]
      exact hsu.write_levelCell hsb hub hkept
    · rw [hbank, hbankW]
      exact hsw.write_levelCell hsb hwb hkept

/-! ### The algorithm bit and the class of a level pair (R149, R151, R154) -/

/-- A mapped level pair is LVL.ADD exactly where the algorithm bit is 1 (R61, R63). -/
theorem decodePair_eq_lvlAdd_iff {c : DecodeCtx} {p : Pair} {r a : Byte} (hd : notDelay c p = true)
    (he : codemapEntry c.codemapLen c.codemap (maskedReg p) = some r) (hr : isLevelRegister r = true)
    (ha : algorithmRegisterFor c.params r = some a) : decodePair c p = .lvlAdd p ↔ algoBit c.bank a = true := by
  rw [decodePair_eq_iff]
  constructor
  · intro h
    cases h with
    | lvlAdd r' a' _ he' _ ha' hb =>
      cases he.symm.trans he'
      cases ha.symm.trans ha'
      exact hb
  · exact .lvlAdd r a hd he hr ha

/-- The algorithm bit of a cell just written is bit 0 of the value. -/
theorem algoBit_write_eq_true {m : Memory} (hm : m.wf = true) (a v : Byte) :
    algoBit (m.write a v) a = true ↔ v &&& 0x01#8 = 1#8 := by
  rw [algoBit_eq_true, Memory.read_write hm, if_pos rfl]

/-- Settles O47: WR stores its own value in the algorithm register, and the next level pair's class is read there; no
bank select is read on the way. -/
theorem algorithmWriteGatesTheNextLevelPair : Obligations.AlgorithmWriteGatesTheNextLevelPair := by
  intro s t p q a r hb hpa ha hqr hr hra hd hexec
  have hstored := exec_wr_of_applyValue_some hpa (applyValue_nonLevel s.params s.reduction s.bank p.value ha)
  cases hstored.symm.trans hexec
  exact (decodePair_eq_lvlAdd_iff (c := decodeCtx (storeAndComplete p a p.value s)) hd hqr hr hra).trans
    (algoBit_write_eq_true hb a p.value)

/-- After reset no algorithm bit is set (R34). -/
theorem algoBit_reset_bank (a : Byte) : algoBit State.reset.bank a = false := by
  have hread : State.reset.bank.read a = 0x00#8 := resetLeavesTheSpecValues.1 a
  rw [algoBit_eq_false, hread, BitVec.zero_and]

/-- Settles O48: LVL.ADD is selected by a set algorithm bit alone. -/
theorem unwrittenBankIsFmMode : Obligations.UnwrittenBankIsFmMode := by
  intro c p hbank h
  cases decodePair_eq_iff.1 h with
  | lvlAdd r a _ _ _ _ hb =>
    rw [hbank, algoBit_reset_bank] at hb
    cases hb

end Sys2Proof.Machine
end
